-- ==== Sys2Proof/Word.lean ====
section
/-! DEFINITION. The widths of the machine's words (spec/00_scope.md R6, R10): bytes, 16-bit words,
4-bit register numbers and keys, 12-bit immediates, and instants of time. -/

namespace Sys2Proof

/-- One memory byte or general register (R6: V_WIDTH, TIMER_WIDTH). -/
abbrev Byte := BitVec 8

/-- One instruction word, pc value, I value or stack entry (R6: INSTR_WIDTH, I_WIDTH, STACK_ENTRY_WIDTH). -/
abbrev Word := BitVec 16

/-- A 4-bit register number 0 to 15 (R30). -/
abbrev RegIdx := BitVec 4

/-- One of the 16 keys 0x0 to 0xF (R290). -/
abbrev Key := BitVec 4

/-- The 12-bit address or immediate of an instruction (R101, field nnn). -/
abbrev Imm12 := BitVec 12

/-- An instant or a span of time in seconds (R346: instants are rational seconds). -/
abbrev Time := Rat

/-- The number of register VF, the flag register (R31). -/
def VF : RegIdx := 15

end Sys2Proof
end

