-- ==== Sys2Proof/Syntax.lean ====
section
/-! DEFINITION. The instruction set: one constructor for each of the 35 rows of
spec/opcode_table.json, in the table's order, with the row's fields as arguments
(spec/30_encoding.md R102, R103, R105). -/

namespace Sys2Proof

/-- An instruction of the baseline CHIP-8 set (R104, R105).  Operands are the fields of the word:
`x`, `y` register numbers, `kk` a byte, `nnn` a 12-bit value, `n` a 4-bit count (R103). -/
inductive Instr where
  /-- 00E0, clear the display (R266). -/
  | cls
  /-- 00EE, return from a subroutine (R173). -/
  | ret
  /-- 0nnn but for 00E0 and 00EE, an ignored system call (R172). -/
  | sys (nnn : Imm12)
  /-- 1nnn, jump (R174). -/
  | jp (nnn : Imm12)
  /-- 2nnn, call a subroutine (R175). -/
  | call (nnn : Imm12)
  /-- 3xkk, skip if V[x] = kk (R176). -/
  | seVxKk (x : RegIdx) (kk : Byte)
  /-- 4xkk, skip if V[x] ≠ kk (R177). -/
  | sneVxKk (x : RegIdx) (kk : Byte)
  /-- 5xy0, skip if V[x] = V[y] (R178). -/
  | seVxVy (x y : RegIdx)
  /-- 9xy0, skip if V[x] ≠ V[y] (R179). -/
  | sneVxVy (x y : RegIdx)
  /-- 6xkk, load an immediate (R202). -/
  | ldVxKk (x : RegIdx) (kk : Byte)
  /-- 7xkk, add an immediate (R203). -/
  | addVxKk (x : RegIdx) (kk : Byte)
  /-- 8xy0, copy a register (R204). -/
  | ldVxVy (x y : RegIdx)
  /-- 8xy1, OR (R205). -/
  | orVxVy (x y : RegIdx)
  /-- 8xy2, AND (R206). -/
  | andVxVy (x y : RegIdx)
  /-- 8xy3, XOR (R207). -/
  | xorVxVy (x y : RegIdx)
  /-- 8xy4, add with carry out (R208). -/
  | addVxVy (x y : RegIdx)
  /-- 8xy5, V[x] minus V[y] (R209). -/
  | sub (x y : RegIdx)
  /-- 8xy6, shift right by one; `y` is decoded and ignored (R103, R210). -/
  | shr (x y : RegIdx)
  /-- 8xy7, V[y] minus V[x] (R211). -/
  | subn (x y : RegIdx)
  /-- 8xyE, shift left by one; `y` is decoded and ignored (R103, R212). -/
  | shl (x y : RegIdx)
  /-- Annn, set the index register (R230). -/
  | ldI (nnn : Imm12)
  /-- Bnnn, jump to nnn + V0 (R180). -/
  | jpV0 (nnn : Imm12)
  /-- Cxkk, a random byte under a mask (R213). -/
  | rnd (x : RegIdx) (kk : Byte)
  /-- Dxyn, draw a sprite of n rows (R267). -/
  | drw (x y : RegIdx) (n : BitVec 4)
  /-- Ex9E, skip if a key is pressed (R294). -/
  | skp (x : RegIdx)
  /-- ExA1, skip if a key is not pressed (R295). -/
  | sknp (x : RegIdx)
  /-- Fx07, read the delay timer (R310). -/
  | ldVxDt (x : RegIdx)
  /-- Fx0A, wait for a key press (R296). -/
  | ldVxK (x : RegIdx)
  /-- Fx15, set the delay timer (R311). -/
  | ldDtVx (x : RegIdx)
  /-- Fx18, set the sound timer (R312). -/
  | ldStVx (x : RegIdx)
  /-- Fx1E, add a register to I (R231). -/
  | addIVx (x : RegIdx)
  /-- Fx29, point I at a font glyph (R232). -/
  | ldFVx (x : RegIdx)
  /-- Fx33, store decimal digits (R233). -/
  | ldBVx (x : RegIdx)
  /-- Fx55, store V0 to V[x] (R234). -/
  | storeRegs (x : RegIdx)
  /-- Fx65, load V0 to V[x] (R235). -/
  | loadRegs (x : RegIdx)
deriving DecidableEq, Repr

end Sys2Proof
end

