-- ==== Sys2Proof/WellFormed.lean ====
section
/-! DEFINITION. Which instruction terms name an instruction: `SYS 0x0E0` and `SYS 0x0EE` do not,
because those words are CLS and RET (spec/30_encoding.md R107, R109). -/

namespace Sys2Proof

/-- The one check of the syntax: SYS may not carry the operands 0x0E0 and 0x0EE, whose words
decode as CLS and RET ("an assembler should refuse those two operands", R109).  Every other
operand value is legal in every instruction (R103). -/
def Instr.wellFormed : Instr → Bool
  | .sys nnn => decide (nnn ≠ 0x0E0#12 ∧ nnn ≠ 0x0EE#12)
  | .cls | .ret | .jp _ | .call _ | .seVxKk _ _ | .sneVxKk _ _ | .seVxVy _ _ | .sneVxVy _ _
  | .ldVxKk _ _ | .addVxKk _ _ | .ldVxVy _ _ | .orVxVy _ _ | .andVxVy _ _ | .xorVxVy _ _
  | .addVxVy _ _ | .sub _ _ | .shr _ _ | .subn _ _ | .shl _ _ | .ldI _ | .jpV0 _ | .rnd _ _
  | .drw _ _ _ | .skp _ | .sknp _ | .ldVxDt _ | .ldVxK _ | .ldDtVx _ | .ldStVx _ | .addIVx _
  | .ldFVx _ | .ldBVx _ | .storeRegs _ | .loadRegs _ => true

end Sys2Proof
end

