-- ==== Sys2Proof/Decode.lean ====
section
/-! DEFINITION. The decoder, total on any bytes, and the encoder (spec/30_encoding.md R100 to R112;
spec/opcode_table.json).  Every bit-field and byte-order helper they use stands in this file. -/

namespace Sys2Proof

/-! ### The six fields of a word (R101) -/

/-- `s = word>>12`, the opcode class. -/
def fieldS (w : Word) : BitVec 4 := w.extractLsb' 12 4
/-- `x=(word>>8)&0xF`. -/
def fieldX (w : Word) : RegIdx := w.extractLsb' 8 4
/-- `y=(word>>4)&0xF`. -/
def fieldY (w : Word) : RegIdx := w.extractLsb' 4 4
/-- `n=word&0xF`. -/
def fieldN (w : Word) : BitVec 4 := w.extractLsb' 0 4
/-- `kk=word&0xFF`. -/
def fieldKK (w : Word) : Byte := w.extractLsb' 0 8
/-- `nnn=word&0xFFF`. -/
def fieldNNN (w : Word) : Imm12 := w.extractLsb' 0 12

/-! ### Byte order (R76, R77) -/

/-- The big-endian word of the byte at pc and the byte at pc + 1 (R77). -/
def wordOfBytes (hi lo : Byte) : Word := BitVec.ofNat 16 (hi.toNat * 256 + lo.toNat)
/-- Bits 15 to 8, the byte that lies at pc (R77). -/
def hiByte (w : Word) : Byte := w.extractLsb' 8 8
/-- Bits 7 to 0, the byte that lies at pc + 1 (R77). -/
def loByte (w : Word) : Byte := w.extractLsb' 0 8

/-! ### The decoder -/

/-- Why bytes are not an instruction. -/
inductive DecodeReject where
  /-- The word selects no row of the opcode map (R106); executing it is DecodeFault(w). -/
  | illegalWord (w : Word)
  /-- Fewer than two bytes: every instruction is one 16-bit word (R100). -/
  | truncated
deriving DecidableEq, Repr

/-- Class 8: the function nibble selects one of nine register operations (R104). -/
def decode8 (w : Word) : Except DecodeReject Instr :=
  match fieldN w with
  | 0x0#4 => .ok (.ldVxVy (fieldX w) (fieldY w))
  | 0x1#4 => .ok (.orVxVy (fieldX w) (fieldY w))
  | 0x2#4 => .ok (.andVxVy (fieldX w) (fieldY w))
  | 0x3#4 => .ok (.xorVxVy (fieldX w) (fieldY w))
  | 0x4#4 => .ok (.addVxVy (fieldX w) (fieldY w))
  | 0x5#4 => .ok (.sub (fieldX w) (fieldY w))
  | 0x6#4 => .ok (.shr (fieldX w) (fieldY w))
  | 0x7#4 => .ok (.subn (fieldX w) (fieldY w))
  | 0xE#4 => .ok (.shl (fieldX w) (fieldY w))
  | _ => .error (.illegalWord w)

/-- Class E: the two key tests (R104). -/
def decodeE (w : Word) : Except DecodeReject Instr :=
  match fieldKK w with
  | 0x9E#8 => .ok (.skp (fieldX w))
  | 0xA1#8 => .ok (.sknp (fieldX w))
  | _ => .error (.illegalWord w)

/-- Class F: the timer, key and memory instructions (R104). -/
def decodeF (w : Word) : Except DecodeReject Instr :=
  match fieldKK w with
  | 0x07#8 => .ok (.ldVxDt (fieldX w))
  | 0x0A#8 => .ok (.ldVxK (fieldX w))
  | 0x15#8 => .ok (.ldDtVx (fieldX w))
  | 0x18#8 => .ok (.ldStVx (fieldX w))
  | 0x1E#8 => .ok (.addIVx (fieldX w))
  | 0x29#8 => .ok (.ldFVx (fieldX w))
  | 0x33#8 => .ok (.ldBVx (fieldX w))
  | 0x55#8 => .ok (.storeRegs (fieldX w))
  | 0x65#8 => .ok (.loadRegs (fieldX w))
  | _ => .error (.illegalWord w)

/-- Class 0: the fixed words 00E0 and 00EE come before the pattern 0nnn (R104, R107, D21). -/
def decode0 (w : Word) : Except DecodeReject Instr :=
  if w = 0x00E0#16 then .ok .cls
  else if w = 0x00EE#16 then .ok .ret
  else .ok (.sys (fieldNNN w))

/-- `Decode(w)` of R104: exactly one of the 35 handlers, or a rejection of the word by name. -/
def decode (w : Word) : Except DecodeReject Instr :=
  match fieldS w with
  | 0x0#4 => decode0 w
  | 0x1#4 => .ok (.jp (fieldNNN w))
  | 0x2#4 => .ok (.call (fieldNNN w))
  | 0x3#4 => .ok (.seVxKk (fieldX w) (fieldKK w))
  | 0x4#4 => .ok (.sneVxKk (fieldX w) (fieldKK w))
  | 0x5#4 => if fieldN w = 0x0#4 then .ok (.seVxVy (fieldX w) (fieldY w)) else .error (.illegalWord w)
  | 0x6#4 => .ok (.ldVxKk (fieldX w) (fieldKK w))
  | 0x7#4 => .ok (.addVxKk (fieldX w) (fieldKK w))
  | 0x8#4 => decode8 w
  | 0x9#4 => if fieldN w = 0x0#4 then .ok (.sneVxVy (fieldX w) (fieldY w)) else .error (.illegalWord w)
  | 0xA#4 => .ok (.ldI (fieldNNN w))
  | 0xB#4 => .ok (.jpV0 (fieldNNN w))
  | 0xC#4 => .ok (.rnd (fieldX w) (fieldKK w))
  | 0xD#4 => .ok (.drw (fieldX w) (fieldY w) (fieldN w))
  | 0xE#4 => decodeE w
  | 0xF#4 => decodeF w
  | _ => .error (.illegalWord w)

/-- The decoder on bytes as they lie in memory: one instruction and the bytes after it.  It is
total: a list of fewer than two bytes is rejected by name. -/
def decodeBytes : List Byte → Except DecodeReject (Instr × List Byte)
  | hi :: lo :: rest =>
    match decode (wordOfBytes hi lo) with
    | .ok i => .ok (i, rest)
    | .error e => .error e
  | [_] => .error .truncated
  | [] => .error .truncated

/-! ### The encoder -/

/-- Formats N and A (R102): the class nibble and nnn. -/
def packA (s : BitVec 4) (nnn : Imm12) : Word := BitVec.ofNat 16 (s.toNat * 4096 + nnn.toNat)
/-- Formats XK and XF (R102): the class nibble, x, and a byte. -/
def packXK (s : BitVec 4) (x : RegIdx) (kk : Byte) : Word :=
  BitVec.ofNat 16 (s.toNat * 4096 + x.toNat * 256 + kk.toNat)
/-- Formats XYF and XYN (R102): the class nibble, x, y, and a nibble. -/
def packXYN (s : BitVec 4) (x y : RegIdx) (n : BitVec 4) : Word :=
  BitVec.ofNat 16 (s.toNat * 4096 + x.toNat * 256 + y.toNat * 16 + n.toNat)

/-- The word of an instruction, from the opcode map of R105.  For SHR and SHL it writes the
operand y, which every decode ignores; the assembler's `SHR Vx` is `shr x 0` (R109). -/
def encode : Instr → Word
  | .cls => 0x00E0
  | .ret => 0x00EE
  | .sys nnn => packA 0x0 nnn
  | .jp nnn => packA 0x1 nnn
  | .call nnn => packA 0x2 nnn
  | .seVxKk x kk => packXK 0x3 x kk
  | .sneVxKk x kk => packXK 0x4 x kk
  | .seVxVy x y => packXYN 0x5 x y 0x0
  | .sneVxVy x y => packXYN 0x9 x y 0x0
  | .ldVxKk x kk => packXK 0x6 x kk
  | .addVxKk x kk => packXK 0x7 x kk
  | .ldVxVy x y => packXYN 0x8 x y 0x0
  | .orVxVy x y => packXYN 0x8 x y 0x1
  | .andVxVy x y => packXYN 0x8 x y 0x2
  | .xorVxVy x y => packXYN 0x8 x y 0x3
  | .addVxVy x y => packXYN 0x8 x y 0x4
  | .sub x y => packXYN 0x8 x y 0x5
  | .shr x y => packXYN 0x8 x y 0x6
  | .subn x y => packXYN 0x8 x y 0x7
  | .shl x y => packXYN 0x8 x y 0xE
  | .ldI nnn => packA 0xA nnn
  | .jpV0 nnn => packA 0xB nnn
  | .rnd x kk => packXK 0xC x kk
  | .drw x y n => packXYN 0xD x y n
  | .skp x => packXK 0xE x 0x9E
  | .sknp x => packXK 0xE x 0xA1
  | .ldVxDt x => packXK 0xF x 0x07
  | .ldVxK x => packXK 0xF x 0x0A
  | .ldDtVx x => packXK 0xF x 0x15
  | .ldStVx x => packXK 0xF x 0x18
  | .addIVx x => packXK 0xF x 0x1E
  | .ldFVx x => packXK 0xF x 0x29
  | .ldBVx x => packXK 0xF x 0x33
  | .storeRegs x => packXK 0xF x 0x55
  | .loadRegs x => packXK 0xF x 0x65

/-- The bytes of an instruction in memory, the byte at pc first (R77). -/
def encodeBytes (i : Instr) : List Byte := [hiByte (encode i), loByte (encode i)]

/-- `SHR Vx` as an assembler writes it, with 0 in the y field (R109). -/
def assembleShr (x : RegIdx) : Instr := .shr x 0
/-- `SHL Vx` as an assembler writes it, with 0 in the y field (R109). -/
def assembleShl (x : RegIdx) : Instr := .shl x 0

/-! ### The opcode map's masks and matches (R105) -/

/-- The `mask` column of R105 for an instruction's row. -/
def rowMask : Instr → Word
  | .cls | .ret => 0xFFFF
  | .sys _ | .jp _ | .call _ | .seVxKk _ _ | .sneVxKk _ _ | .ldVxKk _ _ | .addVxKk _ _
  | .ldI _ | .jpV0 _ | .rnd _ _ | .drw _ _ _ => 0xF000
  | .seVxVy _ _ | .sneVxVy _ _ | .ldVxVy _ _ | .orVxVy _ _ | .andVxVy _ _ | .xorVxVy _ _
  | .addVxVy _ _ | .sub _ _ | .shr _ _ | .subn _ _ | .shl _ _ => 0xF00F
  | .skp _ | .sknp _ | .ldVxDt _ | .ldVxK _ | .ldDtVx _ | .ldStVx _ | .addIVx _ | .ldFVx _
  | .ldBVx _ | .storeRegs _ | .loadRegs _ => 0xF0FF

/-- The `match` column of R105 for an instruction's row. -/
def rowMatch : Instr → Word
  | .cls => 0x00E0
  | .ret => 0x00EE
  | .sys _ => 0x0000
  | .jp _ => 0x1000
  | .call _ => 0x2000
  | .seVxKk _ _ => 0x3000
  | .sneVxKk _ _ => 0x4000
  | .seVxVy _ _ => 0x5000
  | .sneVxVy _ _ => 0x9000
  | .ldVxKk _ _ => 0x6000
  | .addVxKk _ _ => 0x7000
  | .ldVxVy _ _ => 0x8000
  | .orVxVy _ _ => 0x8001
  | .andVxVy _ _ => 0x8002
  | .xorVxVy _ _ => 0x8003
  | .addVxVy _ _ => 0x8004
  | .sub _ _ => 0x8005
  | .shr _ _ => 0x8006
  | .subn _ _ => 0x8007
  | .shl _ _ => 0x800E
  | .ldI _ => 0xA000
  | .jpV0 _ => 0xB000
  | .rnd _ _ => 0xC000
  | .drw _ _ _ => 0xD000
  | .skp _ => 0xE09E
  | .sknp _ => 0xE0A1
  | .ldVxDt _ => 0xF007
  | .ldVxK _ => 0xF00A
  | .ldDtVx _ => 0xF015
  | .ldStVx _ => 0xF018
  | .addIVx _ => 0xF01E
  | .ldFVx _ => 0xF029
  | .ldBVx _ => 0xF033
  | .storeRegs _ => 0xF055
  | .loadRegs _ => 0xF065

/-- The instruction the decoder reads from a table word of `nbits` bits: the word's bytes as they
lie in memory, the bits from `nbits` up being 0. -/
def decodeTableWord (nbits w : Nat) : Option Instr :=
  let v : Word := BitVec.ofNat 16 (w % 2 ^ nbits)
  match decodeBytes [hiByte v, loByte v] with
  | .ok (i, _) => some i
  | .error _ => none

end Sys2Proof
end

