-- ==== Sys2Proof/Config.lean ====
section
/-! DEFINITION. What an implementation fixes (spec/00_scope.md R7) and the one free value of the
model, the host's input to a step beyond the schedule that State holds (R8).  The default VALUES of
the parameters stand in Sys2Proof/Machine/Defaults.lean. -/

namespace Sys2Proof

/-! ### The parameters of R7 -/

/-- FETCH_LIMIT, the bound that pc + 1 must stay below in a fetch: 4094, 4095 or 4096 (R7, R76, D1). -/
inductive FetchLimit where
  | below4094
  | below4095
  | below4096
deriving DecidableEq, Repr

/-- The number a `FetchLimit` stands for. -/
def FetchLimit.bound : FetchLimit → Nat
  | .below4094 => 4094
  | .below4095 => 4095
  | .below4096 => 4096

/-- VF_WRITE_ORDER, the order of the two writes of a result and a flag (R7, R201, D5). -/
inductive VfWriteOrder where
  /-- Flag first, then the result, a shift reading V[x] live. -/
  | sequential
  /-- Flag first, then the result from the operand snapshot. -/
  | resultLast
  /-- Result first, then the flag. -/
  | flagLast
deriving DecidableEq, Repr

/-- FONT_WRITE, what a write into the font range does (R7, R75, D8). -/
inductive FontWrite where
  /-- It raises FontWriteFault. -/
  | fault
  /-- It stores the bytes like any other. -/
  | write
deriving DecidableEq, Repr

/-- The parameters of R7 that a step reads.  State holds them, so that a statement about every
state is a statement about every admitted value of them. -/
structure RunConfig where
  /-- FETCH_LIMIT. -/
  fetchLimit : FetchLimit
  /-- TICK_PERIOD, the timer period in seconds (R343, D15). -/
  tickPeriod : Time
  /-- VF_WRITE_ORDER. -/
  vfWriteOrder : VfWriteOrder
  /-- FONT_WRITE. -/
  fontWrite : FontWrite
deriving DecidableEq, Repr

/-- All the parameters of R7 (PC_WIDTH is fixed at 16, D30): what a construction is given besides
the ROM. -/
structure Config where
  /-- ORIGIN, where the ROM goes and the first fetch is made. -/
  origin : Nat
  /-- The parameters a step reads. -/
  run : RunConfig
  /-- FONT, the 80 bytes at addresses 0 to 79 (R88, D7). -/
  font : Vector Byte 80
  /-- V_INIT (R46, D13). -/
  vInit : Vector Byte 16
  /-- I_INIT (R47, D13). -/
  iInit : Word
  /-- DT_INIT (R50, D13). -/
  dtInit : Byte
  /-- ST_INIT (R50, D13). -/
  stInit : Byte
  /-- MEM_FILL, the byte of every address that neither the font nor the ROM covers (R54, D13). -/
  memFill : Nat → Byte
  /-- T0, the instant of construction (R50, D16). -/
  t0 : Time

/-! ### The host's input to a step (R8, R140, R352) -/

/-- A key event of the host, made between two steps (R292, R293). -/
inductive KeyEvent where
  | press (k : Key)
  | release (k : Key)
deriving DecidableEq, Repr, Inhabited

/-- A span of time that is not negative: `num / (den + 1)` seconds.  Every rational number of
seconds that is not negative is one of these. -/
structure Span where
  num : Nat
  den : Nat
deriving DecidableEq, Repr, Inhabited

/-- The seconds of a span. -/
def Span.seconds (d : Span) : Time := (d.num : Rat) / ((d.den + 1 : Nat) : Rat)

/-- What the host does for one call of `step`: its key events since the call before, in order; how
far its clock has moved since the sample before (so that samples never decrease, R8); and the random
byte of the step. -/
structure StepInput where
  events : List KeyEvent
  elapsed : Span
  rnd : Byte
deriving DecidableEq, Repr, Inhabited

/-- FREE VALUE (R8: "a free draw under no law"): the host's input to the k-th step, where the
schedule that State holds has run out.  It has no body: nothing can be proved of it but what holds
of every input. -/
opaque Config.freeInput : Nat → StepInput

end Sys2Proof
end

