-- ==== Sys2Proof/Machine/Defaults.lean ====
section
/-! DEFINITION. The sizes the spec fixes (spec/00_scope.md R6) and the default values of its
parameters (R7, spec/20_memory.md R88). -/

namespace Sys2Proof.Machine

/-- MEM_SIZE (R6): addresses 0 to 4095. -/
def memSize : Nat := 4096
/-- FONT_BYTES (R6): the font lies at addresses 0 to 79. -/
def fontBytes : Nat := 80
/-- GLYPH_BYTES (R6): a glyph is five bytes, so the glyph of digit d lies at 5·d (R88, D7). -/
def glyphBytes : Nat := 5

/-- The default of FONT: the table of R88, one glyph a line, digits 0 to F.
PRESUMED by the spec itself ("from general knowledge, not in source", K1). -/
def defaultFont : Vector Byte 80 := #v[
  0xF0, 0x90, 0x90, 0x90, 0xF0,
  0x20, 0x60, 0x20, 0x20, 0x70,
  0xF0, 0x10, 0xF0, 0x80, 0xF0,
  0xF0, 0x10, 0xF0, 0x10, 0xF0,
  0x90, 0x90, 0xF0, 0x10, 0x10,
  0xF0, 0x80, 0xF0, 0x10, 0xF0,
  0xF0, 0x80, 0xF0, 0x90, 0xF0,
  0xF0, 0x10, 0x20, 0x40, 0x40,
  0xF0, 0x90, 0xF0, 0x90, 0xF0,
  0xF0, 0x90, 0xF0, 0x10, 0xF0,
  0xF0, 0x90, 0xF0, 0x90, 0x90,
  0xE0, 0x90, 0xE0, 0x90, 0xE0,
  0xF0, 0x80, 0x80, 0x80, 0xF0,
  0xE0, 0x90, 0x90, 0x90, 0xE0,
  0xF0, 0x80, 0xF0, 0x80, 0xF0,
  0xF0, 0x80, 0xF0, 0x80, 0x80]

/-- The default of MEM_FILL: 0x00 everywhere (R7, D13). -/
def defaultFill (_ : Nat) : Byte := 0

/-- The defaults of the parameters a step reads (R7: D1, D15, D5, D8). -/
def defaultRun : RunConfig where
  fetchLimit := .below4094
  tickPeriod := 1 / 60
  vfWriteOrder := .sequential
  fontWrite := .fault

/-- The defaults of all the parameters of R7, with T0 = 0 (spec/95_test_vectors.md, Conventions). -/
def defaultConfig : Config where
  origin := 0x200
  run := defaultRun
  font := defaultFont
  vInit := Vector.replicate 16 0
  iInit := 0
  dtInit := 0
  stInit := 0
  memFill := defaultFill
  t0 := 0

/-- The byte the font and the fill give an address under the default configuration: what an address
that memory does not list reads as (R54, R88). -/
def defaultByte (a : Nat) : Byte :=
  if h : a < 80 then defaultConfig.font[a] else defaultConfig.memFill a

end Sys2Proof.Machine
end

