-- ==== Sys2Proof/Machine/State.lean ====
section
/-! DEFINITION. The machine's state, as plain data: every piece of state that spec/10_state.md gives
the core, the parameters a step reads (spec/00_scope.md R7), and the host's side of the interface
(R8, spec/40_step_cycle.md R140); the faults (spec/60_exceptions.md R331); the state after reset. -/

namespace Sys2Proof.Machine

/-- The fatal faults of R331, each with the record of R330: `p` is the pc at the start of the
faulting step, and the other arguments are the information R331 records.  Each stops the machine,
as the hardware stops (R330), so ending there is SAFE where the spec itself names the cause; the
notes below say where the kind rests on a decision of the spec. -/
inductive Fault where
  /-- Code 1.  Raised by every step whose p + 1 is not below FETCH_LIMIT (R76, R142).  Safe: the
  default limit faults on the most addresses (D1). -/
  | fetchOutOfBounds (p : Word)
  /-- Code 2.  Raised by every step whose word `w` is no instruction (R106, R143).  Safe. -/
  | decodeFault (p : Word) (w : Word)
  /-- Code 3.  Raised by CALL with SP = 16 (R170).  Safe. -/
  | stackOverflow (p : Word)
  /-- Code 4.  Raised by RET with SP = 0 (R171).  Safe. -/
  | stackUnderflow (p : Word)
  /-- Code 5.  Raised by DRW, LD_B_VX, STORE_REGS and LOAD_REGS when `addr + n` exceeds 4096 (R73).
  Safe. -/
  | memOutOfBounds (p : Word) (addr : Word) (n : Nat)
  /-- Code 6.  Raised by LD_F_VX for a digit above 15 (R232, D36).  Safe. -/
  | fontDigitFault (p : Word) (v : Byte)
  /-- Code 7.  Raised by SKP and SKNP for a key above 15 (R294, R295, D9).  Safe: the spec faults
  where the chip may do something. -/
  | keyIndexFault (p : Word) (v : Byte)
  /-- Code 8.  Raised by LD_B_VX and STORE_REGS for a range that meets the font while FONT_WRITE is
  `fault` (R75, D8).  Safe. -/
  | fontWriteFault (p : Word) (addr : Word)
deriving DecidableEq, Repr

/-- The numeric code of a fault kind (R331; the spec's own numbering, D17). -/
def Fault.code : Fault → Nat
  | .fetchOutOfBounds _ => 1
  | .decodeFault _ _ => 2
  | .stackOverflow _ => 3
  | .stackUnderflow _ => 4
  | .memOutOfBounds _ _ _ => 5
  | .fontDigitFault _ _ => 6
  | .keyIndexFault _ _ => 7
  | .fontWriteFault _ _ => 8

/-- The pc that a fault records: the address of the instruction whose step faulted (R331). -/
def Fault.pc : Fault → Word
  | .fetchOutOfBounds p => p
  | .decodeFault p _ => p
  | .stackOverflow p => p
  | .stackUnderflow p => p
  | .memOutOfBounds p _ _ => p
  | .fontDigitFault p _ => p
  | .keyIndexFault p _ => p
  | .fontWriteFault p _ => p

/-- Why the model gives an instruction no meaning.  No instruction of this model is refused. -/
inductive Refusal where
  /-- An arm of `exec` whose instruction has no meaning yet raises it, with the table's mnemonic.
  Safe: nothing is claimed of the instruction.  No arm raises it now. -/
  | notModelled (mnemonic : String)
deriving DecidableEq, Repr

/-- The run status (R42): `Running`, or `Faulted` with the fault's record. -/
inductive Status where
  | running
  | faulted (r : Fault)
deriving DecidableEq, Repr

/-- A timer: the 8-bit countdown register and the instant its current tick period began (R36, R37). -/
structure Timer where
  count : Byte
  tickStart : Time
deriving DecidableEq, Repr

/-- The two outputs a step returns (R140, R148). -/
structure Output where
  redraw : Bool
  beep : Bool
deriving DecidableEq, Repr

/-- A handler's verdict on the pc (R146). -/
inductive Control where
  | next
  | skip
  | jump (target : Word)
deriving DecidableEq, Repr

/-- Memory: (address, byte) pairs in one canonical form, addresses strictly rising and no entry
equal to what an unlisted address reads as (see Machine/Memory.lean). -/
abbrev Memory := List Host.Cell

/-- The framebuffer, `pixel[row][col]`: 32 rows of 64 one-bit pixels (R39, R260). -/
abbrev Frame := Vector (Vector Bool 64) 32

/-- The machine's state.  The fields down to `status` are the state of spec/10_state.md; `config`
is R7's; the fields after it are the host's side of the interface. -/
structure State where
  /-- V0 to VF (R30). -/
  regs : Vector Byte 16
  /-- The program counter (R33). -/
  pc : Word
  /-- The index register I (R34). -/
  i : Word
  /-- The return stack's 16 entries (R35). -/
  stack : Vector Word 16
  /-- SP, the number of entries in use, 0 to 16 (R35). -/
  sp : Fin 17
  /-- The delay timer DT and its tick-start instant (R36, R37). -/
  dt : Timer
  /-- The sound timer ST and its tick-start instant (R38). -/
  st : Timer
  /-- The edge flag ST.must_beep (R38, R349). -/
  mustBeep : Bool
  /-- The pixels (R39). -/
  pixels : Frame
  /-- The edge flag must_draw (R39, R262). -/
  mustDraw : Bool
  /-- `keys[0..15]`, true where the key is pressed (R40). -/
  keys : Vector Bool 16
  /-- True in the keyboard's state Waiting, false in Idle (R40). -/
  waiting : Bool
  /-- The latch: none, or the first key pressed while waiting (R40). -/
  latch : Option Key
  /-- The 4096 bytes of memory (R41, R70). -/
  mem : Memory
  /-- The run status (R42). -/
  status : Status
  /-- The parameters of R7 that a step reads; no step changes them. -/
  config : RunConfig
  /-- The clock sample of the latest step, T0 before the first (R8, R346). -/
  now : Time
  /-- The random byte of the latest step (R8). -/
  rnd : Byte
  /-- MODEL: the host's schedule, its inputs to the steps to come, the next one first. -/
  inputs : List StepInput
  /-- MODEL: how many inputs have been taken; the argument of `Config.freeInput`. -/
  inputsTaken : Nat
  /-- The outputs the latest step returned (R140, R148). -/
  out : Output
deriving DecidableEq, Repr

/-- The machine right after reset, that is, after construction with the default configuration, an
empty ROM and T0 = 0 (R46 to R55, R370, R371).  Memory lists nothing: it holds the default font and
fill. -/
def State.reset : State where
  regs := defaultConfig.vInit
  pc := BitVec.ofNat 16 defaultConfig.origin
  i := defaultConfig.iInit
  stack := Vector.replicate 16 0
  sp := 0
  dt := ⟨defaultConfig.dtInit, defaultConfig.t0⟩
  st := ⟨defaultConfig.stInit, defaultConfig.t0⟩
  mustBeep := false
  pixels := Vector.replicate 32 (Vector.replicate 64 false)
  mustDraw := false
  keys := Vector.replicate 16 false
  waiting := false
  latch := none
  mem := []
  status := .running
  config := defaultConfig.run
  now := defaultConfig.t0
  rnd := 0
  inputs := []
  inputsTaken := 0
  out := ⟨false, false⟩

end Sys2Proof.Machine
end

