-- ==== Sys2Proof/Machine/Memory.lean ====
section
/-! DEFINITION. The 4096-byte memory as a canonical list of cells (spec/20_memory.md R70 to R74). -/

namespace Sys2Proof.Machine

/-- What an address that memory does not list reads as: the reset contents under the default
configuration (R54, R88). -/
def Memory.blank (a : Nat) : Byte := defaultByte a

/-- The byte at an address. -/
def Memory.read : Memory → Nat → Byte
  | [], a => Memory.blank a
  | (b, v) :: m, a => if b = a then v else Memory.read m a

/-- The cells without any for address `a`. -/
def Memory.erase (m : Memory) (a : Nat) : Memory := m.filter fun c => c.1 != a

/-- Lists `v` at `a`, keeping addresses rising. -/
def Memory.put : Memory → Nat → Byte → Memory
  | [], a, v => [(a, v)]
  | (b, u) :: m, a, v =>
    if a < b then (a, v) :: (b, u) :: m
    else if a = b then (a, v) :: m
    else (b, u) :: Memory.put m a v

/-- Stores one byte.  A byte equal to what an unlisted address reads as is stored by listing
nothing, so that equal memories are equal data. -/
def Memory.write (m : Memory) (a : Nat) (v : Byte) : Memory :=
  if v = Memory.blank a then Memory.erase m a else Memory.put m a v

/-- The `n` bytes from `a` up, in ascending address order (R73, R77). -/
def Memory.readBlock (m : Memory) (a n : Nat) : List Byte :=
  (List.range n).map fun k => Memory.read m (a + k)

/-- Stores bytes from `a` up, in ascending address order (R73, R77). -/
def Memory.writeBlock : Memory → Nat → List Byte → Memory
  | m, _, [] => m
  | m, a, b :: bs => Memory.writeBlock (Memory.write m a b) (a + 1) bs

/-- The memory that holds `f a` at every address below 4096. -/
def Memory.ofBytes (f : Nat → Byte) : Memory :=
  (List.range memSize).filterMap fun a => if f a = Memory.blank a then none else some (a, f a)

/-- The canonical form: addresses strictly rising, each below 4096, and no entry equal to what an
unlisted address reads as. -/
def Memory.wf (m : Memory) : Bool :=
  decide (m.Pairwise fun c d => c.1 < d.1) &&
    m.all fun c => decide (c.1 < memSize) && decide (c.2 ≠ Memory.blank c.1)

/-- An access of `n` bytes from `a` is in bounds if and only if a + n ≤ 4096, on unbounded
integers (R73). -/
def Memory.inBounds (a n : Nat) : Bool := decide (a + n ≤ memSize)

end Sys2Proof.Machine
end

