-- ==== Sys2Proof/Machine/Ops.lean ====
section
/-! DEFINITION. The named operations over registers, memory, the return stack, the keyboard and the
timers; the pc update; and raising a fault (spec/20_memory.md R73 to R75, spec/40_step_cycle.md R146,
spec/41_control_flow.md R170, R171, spec/45_keyboard.md R291 to R293, spec/60_exceptions.md R330,
R347, R348). -/

namespace Sys2Proof.Machine

/-! ### General registers (R30) -/

/-- `V[x]`. -/
def State.v (s : State) (x : RegIdx) : Byte := s.regs[x.toNat]'x.isLt

/-- `V[x] <- b`. -/
def State.setV (s : State) (x : RegIdx) (b : Byte) : State :=
  { s with regs := s.regs.set x.toNat b x.isLt }

/-- `V[r] <- b[0]; V[r+1] <- b[1]; …`, the loop of R235. -/
def State.setVs : State → Nat → List Byte → State
  | s, _, [] => s
  | s, r, b :: bs => State.setVs (s.setV (BitVec.ofNat 4 r) b) (r + 1) bs

/-- `[V[0], V[1], …, V[x]]`, the x + 1 bytes of R234. -/
def State.vUpTo (s : State) (x : RegIdx) : List Byte :=
  (List.range (x.toNat + 1)).map fun r => s.v (BitVec.ofNat 4 r)

/-! ### The index register (R34) -/

/-- `I <- a`. -/
def State.setI (s : State) (a : Word) : State := { s with i := a }

/-! ### Phase 5, the pc update (R146) -/

/-- The pc that a verdict gives, from the state as the handler left it: pc still holds p there, and
`waiting` is as the handler left it. -/
def State.nextPc (s : State) : Control → Word
  | .jump t => t
  | .skip => s.pc + 4
  | .next => if s.waiting then s.pc else s.pc + 2

/-- The pc update. -/
def State.advance (s : State) (c : Control) : State := { s with pc := s.nextPc c }

/-! ### Faults (R330, R331, R335): the one way an instruction or a step ends in a fault -/

/-- Raises a fault: the step ends at once with its record, and nothing else of the state has
changed (R149, R332).  There is no trap entry and no return from it (R335, R336). -/
def raise (f : Fault) : Host.Outcome State Fault Refusal := .fault f

/-- `status <- Faulted(F, p, info)`, the state a faulted step leaves (R330). -/
def State.record (s : State) (f : Fault) : State := { s with status := .faulted f }

/-- Completes a handler that could fault: raises its fault, or updates the pc. -/
def finish (r : Except Fault State) (c : Control) : Host.Outcome State Fault Refusal :=
  match r with
  | .error f => raise f
  | .ok s => .next (s.advance c)

/-! ### Memory blocks (R73, R74, R75) -/

/-- `MemRead(a, n)`: the bounds check comes before any byte moves. -/
def State.memRead (s : State) (a : Word) (n : Nat) : Except Fault (List Byte) :=
  if Memory.inBounds a.toNat n then .ok (Memory.readBlock s.mem a.toNat n)
  else .error (.memOutOfBounds s.pc a n)

/-- Whether a write of `n` bytes from `a` meets the font range 0 to 79 (R75). -/
def meetsFont (a n : Nat) : Bool := decide (0 < n ∧ a < fontBytes)

/-- `MemWrite(a, n, bytes)`: the bounds check, then the font check under FONT_WRITE, and only then
the bytes (R73, R74, R75). -/
def State.memWrite (s : State) (a : Word) (bs : List Byte) : Except Fault State :=
  if Memory.inBounds a.toNat bs.length then
    if s.config.fontWrite = .fault ∧ meetsFont a.toNat bs.length then .error (.fontWriteFault s.pc a)
    else .ok { s with mem := Memory.writeBlock s.mem a.toNat bs }
  else .error (.memOutOfBounds s.pc a bs.length)

/-! ### The return stack (R170, R171) -/

/-- `Push(a)`: the depth check comes first. -/
def State.push (s : State) (a : Word) : Except Fault State :=
  if h : s.sp.val < 16 then
    .ok { s with stack := s.stack.set s.sp.val a h, sp := ⟨s.sp.val + 1, by omega⟩ }
  else .error (.stackOverflow s.pc)

/-- `Pop()`: the most recently pushed address and the state without it. -/
def State.pop (s : State) : Except Fault (Word × State) :=
  if h : s.sp.val = 0 then .error (.stackUnderflow s.pc)
  else
    have := s.sp.isLt
    .ok (s.stack[s.sp.val - 1]'(by omega), { s with sp := ⟨s.sp.val - 1, by omega⟩ })

/-! ### The keyboard (R290 to R293) -/

/-- `keys[k]`. -/
def State.keyDown (s : State) (k : Key) : Bool := s.keys[k.toNat]'k.isLt

/-- `GetKey()`: from Idle it enters Waiting and returns none; waiting with a key latched it returns
the key, empties the latch and goes back to Idle; else it stays Waiting and returns none (R291). -/
def State.getKey (s : State) : Option Key × State :=
  if s.waiting then
    match s.latch with
    | some k => (some k, { s with latch := none, waiting := false })
    | none => (none, s)
  else (none, { s with waiting := true })

/-- What a key event does to `keys` (R292, R293). -/
def keysAfter (keys : Vector Bool 16) : KeyEvent → Vector Bool 16
  | .press k => keys.set k.toNat true k.isLt
  | .release k => keys.set k.toNat false k.isLt

/-- What a key event does to the latch: a press while Waiting fills an empty one (R292), a release
leaves it (R293). -/
def latchAfter (waiting : Bool) (latch : Option Key) : KeyEvent → Option Key
  | .press k => if waiting = true ∧ latch = none then some k else latch
  | .release _ => latch

/-- Key events of the host, in order.  They change `keys` and the latch and nothing else. -/
def State.keyEvents (s : State) (es : List KeyEvent) : State :=
  { s with keys := es.foldl keysAfter s.keys, latch := es.foldl (latchAfter s.waiting) s.latch }

/-! ### Timers (R347, R348) -/

/-- `SetTime(T, v, now)`. -/
def Timer.setTime (v : Byte) (now : Time) : Timer := ⟨v, now⟩

/-- Whether `Countdown(T, now)` decrements: the count is not 0 and at least one period has passed
since the tick-start instant. -/
def Timer.due (period now : Time) (t : Timer) : Bool :=
  decide (t.count ≠ 0 ∧ period ≤ now - t.tickStart)

/-- `Countdown(T, now)`, without the beep. -/
def Timer.countdown (period now : Time) (t : Timer) : Timer :=
  if t.due period now then ⟨t.count - 1, now⟩ else t

end Sys2Proof.Machine
end

