-- ==== Sys2Proof/Machine/Cycle.lean ====
section
/-! DEFINITION. The phases of a step around the handler: the host's input, the fetch, the timer ticks
and the harvest (spec/40_step_cycle.md R140, R142, R147, R148, R152; spec/20_memory.md R76). -/

namespace Sys2Proof.Machine

/-- The host's input to the next step: the head of the schedule, or a free value once the schedule
has run out (R8). -/
def State.nextInput (s : State) : StepInput :=
  match s.inputs with
  | u :: _ => u
  | [] => Config.freeInput s.inputsTaken

/-- The state as a step finds it: the host's key events since the step before have been applied
(R152, R292, R293), and the step's clock sample and random byte are in place (R8, R140). -/
def State.beginStep (s : State) : State :=
  { s.keyEvents s.nextInput.events with
    now := s.now + s.nextInput.elapsed.seconds
    rnd := s.nextInput.rnd
    inputs := s.inputs.tail
    inputsTaken := s.inputsTaken + 1 }

/-- `Fetch(pc)`: the big-endian word at pc and pc + 1, both below FETCH_LIMIT on unbounded integers
(R76, R142). -/
def State.fetch (s : State) : Except Fault Word :=
  if s.pc.toNat + 1 < s.config.fetchLimit.bound then
    .ok (wordOfBytes (Memory.read s.mem s.pc.toNat) (Memory.read s.mem (s.pc.toNat + 1)))
  else .error (.fetchOutOfBounds s.pc)

/-- Phase 6: Countdown(DT, now), then Countdown(ST, now), whose decrement sets the beep flag (R147,
R348, R349). -/
def State.tick (s : State) : State :=
  { s with
    dt := s.dt.countdown s.config.tickPeriod s.now
    st := s.st.countdown s.config.tickPeriod s.now
    mustBeep := s.mustBeep || s.st.due s.config.tickPeriod s.now }

/-- Phase 7: the two edge flags become the step's outputs and are cleared (R148). -/
def State.harvest (s : State) : State :=
  { s with out := ⟨s.mustDraw, s.mustBeep⟩, mustDraw := false, mustBeep := false }

/-- Phases 6 and 7. -/
def State.endStep (s : State) : State := s.tick.harvest

/-- The memory with the bytes of a word at `a` and `a + 1`, big-endian, where both exist (R77). -/
def Memory.placeWord (m : Memory) (a : Nat) (w : Word) : Memory :=
  if Memory.inBounds a 2 then Memory.writeBlock m a [hiByte w, loByte w] else m

end Sys2Proof.Machine
end

