-- ==== Sys2Proof/Machine/Flags.lean ====
section
/-! DEFINITION. Every flag value the spec gives VF (spec/10_state.md R43) and the order in which a
result and a flag are written (spec/42_alu.md R201). -/

namespace Sys2Proof.Machine

/-- A flag as the byte VF receives. -/
def flagByte (b : Bool) : Byte := if b then 1 else 0

/-- Carry of 8xy4: 1 if the 9-bit sum exceeds 255 (R43, R208). -/
def carryFlag (a b : Byte) : Byte := flagByte (decide (a.toNat + b.toNat > 255))

/-- No-borrow of a - b: 1 if a is strictly greater than b (R43, R209, R211). -/
def noBorrowFlag (a b : Byte) : Byte := flagByte (decide (a.toNat > b.toNat))

/-- The bit that a right shift by one moves out, bit 0 (R43, R210). -/
def shrOut (a : Byte) : Byte := a &&& 1

/-- The bit that a left shift by one moves out, bit 7 (R43, R212). -/
def shlOut (a : Byte) : Byte := a >>> 7

/-- `WriteResultAndFlag(x, r, f, order)` (R201). -/
def State.writeResultAndFlag (s : State) (x : RegIdx) (r f : Byte) : VfWriteOrder → State
  | .flagLast => (s.setV x r).setV VF f
  | .sequential => (s.setV VF f).setV x r
  | .resultLast => (s.setV VF f).setV x r

/-- `ShiftWrite(x, g, f, order)` (R201): under `sequential` the shift reads V[x] after the flag has
been written, else it reads the operand as it was before the handler. -/
def State.shiftWrite (s : State) (x : RegIdx) (g : Byte → Byte) (f : Byte) : VfWriteOrder → State
  | .flagLast => (s.setV x (g (s.v x))).setV VF f
  | .resultLast => (s.setV VF f).setV x (g (s.v x))
  | .sequential => (s.setV VF f).setV x (g ((s.setV VF f).v x))

end Sys2Proof.Machine
end

