-- ==== Sys2Proof/Machine/Operands.lean ====
section
/-! DEFINITION. The operand forms of the instructions (spec/30_encoding.md R103, spec/40_step_cycle.md
R144): how an immediate or a register value becomes what a handler computes with. -/

namespace Sys2Proof.Machine

/-- nnn as a pc value, an I value or an addend: zero-extended to 16 bits (R103). -/
def addrOf (nnn : Imm12) : Word := nnn.setWidth 16

/-- A register value zero-extended to 16 bits (R180, R231). -/
def zext16 (b : Byte) : Word := b.setWidth 16

/-- A register value as a key number, where it is one of the 16 (R294, R295). -/
def keyOf (b : Byte) : Option Key := if b.toNat ≤ 0xF then some (b.setWidth 4) else none

/-- A key number as a register value, zero-extended to 8 bits (R296, D33). -/
def byteOfKey (k : Key) : Byte := k.setWidth 8

/-- The address of the glyph of a digit, where the value is a digit: 5·d (R88, R232, D7). -/
def glyphAddress (b : Byte) : Option Word :=
  if b.toNat ≤ 0xF then some (BitVec.ofNat 16 (glyphBytes * b.toNat)) else none

/-- The hundreds, tens and ones digits of a value (R233). -/
def bcdDigits (b : Byte) : List Byte :=
  [BitVec.ofNat 8 (b.toNat / 100), BitVec.ofNat 8 (b.toNat / 10 % 10), BitVec.ofNat 8 (b.toNat % 10)]

end Sys2Proof.Machine
end

