-- ==== Sys2Proof/Machine/Alu.lean ====
section
/-! DEFINITION. The meanings of the register loads, the arithmetic and logic instructions, the
shifts and RND (spec/42_alu.md R200 to R213). -/

namespace Sys2Proof.Machine

/-- LD Vx, kk (R202). -/
def execLdVxKk (x : RegIdx) (kk : Byte) (s : State) : Host.Outcome State Fault Refusal :=
  .next ((s.setV x kk).advance .next)

/-- ADD Vx, kk: wraps, no flag (R203). -/
def execAddVxKk (x : RegIdx) (kk : Byte) (s : State) : Host.Outcome State Fault Refusal :=
  .next ((s.setV x (s.v x + kk)).advance .next)

/-- LD Vx, Vy (R204). -/
def execLdVxVy (x y : RegIdx) (s : State) : Host.Outcome State Fault Refusal :=
  .next ((s.setV x (s.v y)).advance .next)

/-- OR Vx, Vy (R205). -/
def execOrVxVy (x y : RegIdx) (s : State) : Host.Outcome State Fault Refusal :=
  .next ((s.setV x (s.v x ||| s.v y)).advance .next)

/-- AND Vx, Vy (R206). -/
def execAndVxVy (x y : RegIdx) (s : State) : Host.Outcome State Fault Refusal :=
  .next ((s.setV x (s.v x &&& s.v y)).advance .next)

/-- XOR Vx, Vy (R207). -/
def execXorVxVy (x y : RegIdx) (s : State) : Host.Outcome State Fault Refusal :=
  .next ((s.setV x (s.v x ^^^ s.v y)).advance .next)

/-- ADD Vx, Vy: the wrapped sum, then VF = carry (R208). -/
def execAddVxVy (x y : RegIdx) (s : State) : Host.Outcome State Fault Refusal :=
  .next ((s.writeResultAndFlag x (s.v x + s.v y) (carryFlag (s.v x) (s.v y)) .flagLast).advance .next)

/-- SUB Vx, Vy: V[x] - V[y], then VF = (V[x] > V[y]) (R209). -/
def execSub (x y : RegIdx) (s : State) : Host.Outcome State Fault Refusal :=
  .next ((s.writeResultAndFlag x (s.v x - s.v y) (noBorrowFlag (s.v x) (s.v y)) .flagLast).advance .next)

/-- SHR Vx: V[y] is not read (R103, R210). -/
def execShr (x _y : RegIdx) (s : State) : Host.Outcome State Fault Refusal :=
  .next ((s.shiftWrite x (fun a => a >>> 1) (shrOut (s.v x)) s.config.vfWriteOrder).advance .next)

/-- SUBN Vx, Vy: V[y] - V[x], then VF = (V[y] > V[x]) (R211). -/
def execSubn (x y : RegIdx) (s : State) : Host.Outcome State Fault Refusal :=
  .next ((s.writeResultAndFlag x (s.v y - s.v x) (noBorrowFlag (s.v y) (s.v x)) .flagLast).advance .next)

/-- SHL Vx: V[y] is not read (R103, R212). -/
def execShl (x _y : RegIdx) (s : State) : Host.Outcome State Fault Refusal :=
  .next ((s.shiftWrite x (fun a => a <<< 1) (shlOut (s.v x)) s.config.vfWriteOrder).advance .next)

/-- RND Vx, kk: the step's random byte under the mask (R8, R213). -/
def execRnd (x : RegIdx) (kk : Byte) (s : State) : Host.Outcome State Fault Refusal :=
  .next ((s.setV x (s.rnd &&& kk)).advance .next)

end Sys2Proof.Machine
end

