-- ==== Sys2Proof/Machine/ControlFlow.lean ====
section
/-! DEFINITION. The meanings of SYS, RET, JP, CALL, the four conditional skips on registers, and
JP V0 (spec/41_control_flow.md R172 to R182). -/

namespace Sys2Proof.Machine

/-- The verdict of a skip instruction (R146). -/
def skipIf (b : Bool) : Control := if b then .skip else .next

/-- SYS nnn: a no-op (R107, R172). -/
def execSys (_nnn : Imm12) (s : State) : Host.Outcome State Fault Refusal :=
  .next (s.advance .next)

/-- RET: `t <- Pop(); control <- Jump(t)` (R173). -/
def execRet (s : State) : Host.Outcome State Fault Refusal :=
  match s.pop with
  | .error f => raise f
  | .ok (t, s') => .next (s'.advance (.jump t))

/-- JP nnn (R174). -/
def execJp (nnn : Imm12) (s : State) : Host.Outcome State Fault Refusal :=
  .next (s.advance (.jump (addrOf nnn)))

/-- CALL nnn: `Push(p + 2); control <- Jump(nnn)` (R175, D2). -/
def execCall (nnn : Imm12) (s : State) : Host.Outcome State Fault Refusal :=
  finish (s.push (s.pc + 2)) (.jump (addrOf nnn))

/-- SE Vx, kk (R176). -/
def execSeVxKk (x : RegIdx) (kk : Byte) (s : State) : Host.Outcome State Fault Refusal :=
  .next (s.advance (skipIf (s.v x == kk)))

/-- SNE Vx, kk (R177). -/
def execSneVxKk (x : RegIdx) (kk : Byte) (s : State) : Host.Outcome State Fault Refusal :=
  .next (s.advance (skipIf (s.v x != kk)))

/-- SE Vx, Vy (R178). -/
def execSeVxVy (x y : RegIdx) (s : State) : Host.Outcome State Fault Refusal :=
  .next (s.advance (skipIf (s.v x == s.v y)))

/-- SNE Vx, Vy (R179). -/
def execSneVxVy (x y : RegIdx) (s : State) : Host.Outcome State Fault Refusal :=
  .next (s.advance (skipIf (s.v x != s.v y)))

/-- JP V0, nnn: the sum fits 16 bits and is not reduced (R180). -/
def execJpV0 (nnn : Imm12) (s : State) : Host.Outcome State Fault Refusal :=
  .next (s.advance (.jump (addrOf nnn + zext16 (s.v 0))))

end Sys2Proof.Machine
end

