-- ==== Sys2Proof/Machine/Frame.lean ====
section
/-! DEFINITION. The framebuffer and the XOR blitter (spec/44_display.md R260 to R265). -/

namespace Sys2Proof.Machine

/-- Every pixel off (R263). -/
def Frame.clear : Frame := Vector.replicate 32 (Vector.replicate 64 false)

/-- `pixel[r][c]` (R260). -/
def Frame.pixel (f : Frame) (r : Fin 32) (c : Fin 64) : Bool := f[r][c]

/-- `pixel[r][c] <- not pixel[r][c]` (R264). -/
def Frame.flip (f : Frame) (r : Fin 32) (c : Fin 64) : Frame :=
  f.set r.val (f[r].set c.val (!f[r][c]) c.isLt) r.isLt

/-- A column reduced modulo the display's width (R264). -/
def wrapCol (n : Nat) : Fin 64 := Fin.ofNat 64 n
/-- A row reduced modulo the display's height (R264, C1). -/
def wrapRow (n : Nat) : Fin 32 := Fin.ofNat 32 n

/-- The sprite bit at column offset `bit` of a row: offset 0, the leftmost, is bit 7 (R261, D6). -/
def spriteBit (b : Byte) (bit : Nat) : Bool := b.getLsbD (7 - bit)

/-- The inner body of DrawSprite: one bit of one sprite row.  The collision is judged before the
XOR (R264, R265). -/
def Frame.drawBit (cx cy : Byte) (row : Nat) (b : Byte) (acc : Frame × Bool) (bit : Nat) : Frame × Bool :=
  if spriteBit b bit then
    (Frame.flip acc.1 (wrapRow (cy.toNat + row)) (wrapCol (cx.toNat + bit)),
      acc.2 || Frame.pixel acc.1 (wrapRow (cy.toNat + row)) (wrapCol (cx.toNat + bit)))
  else acc

/-- One row of a sprite, bits 0 to 7 (R264). -/
def Frame.drawRow (cx cy : Byte) (row : Nat) (b : Byte) (acc : Frame × Bool) : Frame × Bool :=
  (List.range 8).foldl (Frame.drawBit cx cy row b) acc

/-- The rows of a sprite, from row number `row` on (R264). -/
def Frame.drawRows (cx cy : Byte) : Nat → List Byte → Frame × Bool → Frame × Bool
  | _, [], acc => acc
  | row, b :: bs, acc => Frame.drawRows cx cy (row + 1) bs (Frame.drawRow cx cy row b acc)

/-- `DrawSprite(b, cx, cy)` on the pixels: the new pixels, and whether any pixel collided (R264). -/
def Frame.drawSprite (f : Frame) (bs : List Byte) (cx cy : Byte) : Frame × Bool :=
  Frame.drawRows cx cy 0 bs (f, false)

/-- The snapshot the host reads: row-major, pixel[r][c] as element 64·r + c (R260, R269, R353). -/
def Frame.snapshot (f : Frame) : List Bool := (f.toList.map Vector.toList).flatten

end Sys2Proof.Machine
end

