-- ==== Sys2Proof/Machine/Display.lean ====
section
/-! DEFINITION. The meanings of CLS and DRW (spec/44_display.md R263, R266, R267). -/

namespace Sys2Proof.Machine

/-- `Clear()`: every pixel off and must_draw set (R262, R263). -/
def State.clearDisplay (s : State) : State := { s with pixels := Frame.clear, mustDraw := true }

/-- `DrawSprite(b, cx, cy)`: the pixels XORed, must_draw set, and the collision result (R262, R264). -/
def State.drawSprite (s : State) (bs : List Byte) (cx cy : Byte) : State × Bool :=
  ({ s with pixels := (Frame.drawSprite s.pixels bs cx cy).1, mustDraw := true },
    (Frame.drawSprite s.pixels bs cx cy).2)

/-- CLS (R266). -/
def execCls (s : State) : Host.Outcome State Fault Refusal :=
  .next (s.clearDisplay.advance .next)

/-- DRW Vx, Vy, n: the n bytes at I drawn at column V[x], row V[y], then VF = collision; the
coordinates are the values before the instruction (R267). -/
def execDrw (x y : RegIdx) (n : BitVec 4) (s : State) : Host.Outcome State Fault Refusal :=
  match s.memRead s.i n.toNat with
  | .error f => raise f
  | .ok bs =>
    .next (((s.drawSprite bs (s.v x) (s.v y)).1.setV VF
      (flagByte (s.drawSprite bs (s.v x) (s.v y)).2)).advance .next)

end Sys2Proof.Machine
end

