-- ==== Sys2Proof/Machine/Index.lean ====
section
/-! DEFINITION. The meanings of the index register and memory-block instructions
(spec/43_index_memory.md R230 to R235).  No access changes I (D11). -/

namespace Sys2Proof.Machine

/-- LD I, nnn (R230). -/
def execLdI (nnn : Imm12) (s : State) : Host.Outcome State Fault Refusal :=
  .next ((s.setI (addrOf nnn)).advance .next)

/-- ADD I, Vx: wraps modulo 2^16, no flag (R231, D10). -/
def execAddIVx (x : RegIdx) (s : State) : Host.Outcome State Fault Refusal :=
  .next ((s.setI (s.i + zext16 (s.v x))).advance .next)

/-- LD F, Vx: I points at the glyph, or FontDigitFault before I changes (R232, D7, D36). -/
def execLdFVx (x : RegIdx) (s : State) : Host.Outcome State Fault Refusal :=
  match glyphAddress (s.v x) with
  | some a => .next ((s.setI a).advance .next)
  | none => raise (.fontDigitFault s.pc (s.v x))

/-- LD B, Vx: the three decimal digits at I, I + 1, I + 2 (R233). -/
def execLdBVx (x : RegIdx) (s : State) : Host.Outcome State Fault Refusal :=
  finish (s.memWrite s.i (bcdDigits (s.v x))) .next

/-- LD [I], Vx: V0 to V[x], inclusive, at I up (R234). -/
def execStoreRegs (x : RegIdx) (s : State) : Host.Outcome State Fault Refusal :=
  finish (s.memWrite s.i (s.vUpTo x)) .next

/-- LD Vx, [I]: V0 to V[x], inclusive, from I up (R235). -/
def execLoadRegs (x : RegIdx) (s : State) : Host.Outcome State Fault Refusal :=
  match s.memRead s.i (x.toNat + 1) with
  | .error f => raise f
  | .ok bs => .next ((s.setVs 0 bs).advance .next)

end Sys2Proof.Machine
end

