-- ==== Sys2Proof/Machine/Keyboard.lean ====
section
/-! DEFINITION. The meanings of SKP, SKNP and the key wait (spec/45_keyboard.md R294 to R296). -/

namespace Sys2Proof.Machine

/-- SKP Vx: KeyIndexFault above 15, else skip if the key is pressed (R294, D9). -/
def execSkp (x : RegIdx) (s : State) : Host.Outcome State Fault Refusal :=
  match keyOf (s.v x) with
  | some k => .next (s.advance (skipIf (s.keyDown k)))
  | none => raise (.keyIndexFault s.pc (s.v x))

/-- SKNP Vx: KeyIndexFault above 15, else skip if the key is not pressed (R295, D9). -/
def execSknp (x : RegIdx) (s : State) : Host.Outcome State Fault Refusal :=
  match keyOf (s.v x) with
  | some k => .next (s.advance (skipIf (!s.keyDown k)))
  | none => raise (.keyIndexFault s.pc (s.v x))

/-- The state Fx0A leaves before the pc update: V[x] receives the key that `GetKey()` returned, if
it returned one (R296). -/
def State.takeKey (s : State) (x : RegIdx) : State :=
  match s.getKey.1 with
  | some k => s.getKey.2.setV x (byteOfKey k)
  | none => s.getKey.2

/-- LD Vx, K: while the keyboard is Waiting afterwards, the pc update holds the pc (R146, R296). -/
def execLdVxK (x : RegIdx) (s : State) : Host.Outcome State Fault Refusal :=
  .next ((s.takeKey x).advance .next)

end Sys2Proof.Machine
end

