-- ==== Sys2Proof/Machine/Timers.lean ====
section
/-! DEFINITION. The meanings of the timer instructions (spec/46_timers.md R310 to R312). -/

namespace Sys2Proof.Machine

/-- LD Vx, DT (R310). -/
def execLdVxDt (x : RegIdx) (s : State) : Host.Outcome State Fault Refusal :=
  .next ((s.setV x s.dt.count).advance .next)

/-- LD DT, Vx: `SetTime(DT, vx, now)` (R311, R347). -/
def execLdDtVx (x : RegIdx) (s : State) : Host.Outcome State Fault Refusal :=
  .next (State.advance { s with dt := Timer.setTime (s.v x) s.now } .next)

/-- LD ST, Vx: `SetTime(ST, vx, now)`; the beep flag is not touched (R312, R347). -/
def execLdStVx (x : RegIdx) (s : State) : Host.Outcome State Fault Refusal :=
  .next (State.advance { s with st := Timer.setTime (s.v x) s.now } .next)

end Sys2Proof.Machine
end

