-- ==== Sys2Proof/Machine/Step.lean ====
section
/-! DEFINITION. One call of `step()` (spec/40_step_cycle.md R140 to R150). -/

namespace Sys2Proof.Machine

/-- Phases 1 to 7 of a step on a core that is Running and whose input is in place (R142 to R150). -/
def runPhases (s : State) : Host.Outcome State Fault Refusal :=
  match s.fetch with
  | .error f => raise f
  | .ok w =>
    match decode w with
    | .error _ => raise (.decodeFault s.pc w)
    | .ok i =>
      match exec i s with
      | .next t => .next t.endStep
      | .fault f => .fault f
      | .refused r => .refused r

/-- One step.  A Faulted core has no step: the call returns its fault again (R141). -/
def step (s : State) : Host.Outcome State Fault Refusal :=
  match s.status with
  | .faulted r => .fault r
  | .running => runPhases s.beginStep

/-- The state a call of `step` leaves behind, a faulted call included: a fault sets the status and
changes nothing else of the core, and a call on a Faulted core changes nothing (R141, R149, R330,
R332). -/
def State.after (s : State) : State :=
  match step s with
  | .next t => t
  | .fault f =>
    match s.status with
    | .faulted _ => s
    | .running => s.beginStep.record f
  | .refused _ => s

/-- `s` with the instruction of a table word of `nbits` bits at the pc, where the next step fetches
it (the bits from `nbits` up are 0); the word is placed in memory as R77 lays it out. -/
def State.withFetchWord (s : State) (nbits w : Nat) : State :=
  { s with mem := Memory.placeWord s.mem s.pc.toNat (BitVec.ofNat 16 (w % 2 ^ nbits)) }

end Sys2Proof.Machine
end

