-- ==== Sys2Proof/Machine/Construct.lean ====
section
/-! DEFINITION. The host's other moves: construction with a ROM, key events, and the reads of the
framebuffer and the status (spec/60_exceptions.md R352, spec/70_reset_and_hazards.md R370 to R372). -/

namespace Sys2Proof.Machine

/-- Why a construction is refused (R372, D23).  A refused construction gives no core. -/
inductive ConstructRefusal where
  /-- A parameter is outside its admitted range. -/
  | parameterOutOfRange
  /-- The ROM is longer than 4096 - ORIGIN. -/
  | romTooLong
deriving DecidableEq, Repr

/-- The admitted ranges of R7 that the types do not already give: 80 ≤ ORIGIN ≤ 4094, a positive
TICK_PERIOD, and T0 an instant of non-negative seconds (D23, D15, D34). -/
def admitted (cfg : Config) : Bool :=
  decide (80 ≤ cfg.origin ∧ cfg.origin ≤ 4094) && decide (0 < cfg.run.tickPeriod) && decide (0 ≤ cfg.t0)

/-- The byte an address holds after construction: FONT, the ROM, or MEM_FILL (R54, R371). -/
def initialByte (cfg : Config) (rom : List Byte) (a : Nat) : Byte :=
  if h : a < 80 then cfg.font[a]
  else if cfg.origin ≤ a then rom.getD (a - cfg.origin) (cfg.memFill a)
  else cfg.memFill a

/-- The state of R371's construction. -/
def constructed (cfg : Config) (rom : List Byte) : State where
  regs := cfg.vInit
  pc := BitVec.ofNat 16 cfg.origin
  i := cfg.iInit
  stack := Vector.replicate 16 0
  sp := 0
  dt := ⟨cfg.dtInit, cfg.t0⟩
  st := ⟨cfg.stInit, cfg.t0⟩
  mustBeep := false
  pixels := Frame.clear
  mustDraw := false
  keys := Vector.replicate 16 false
  waiting := false
  latch := none
  mem := Memory.ofBytes (initialByte cfg rom)
  status := .running
  config := cfg.run
  now := cfg.t0
  rnd := 0
  inputs := []
  inputsTaken := 0
  out := ⟨false, false⟩

/-- `Construct(ROM, config, T0)`: a Running core, or a refusal (R371, R372). -/
def construct (cfg : Config) (rom : List Byte) : Except ConstructRefusal State :=
  if admitted cfg then
    if rom.length ≤ memSize - cfg.origin then .ok (constructed cfg rom) else .error .romTooLong
  else .error .parameterOutOfRange

/-- `PressKey(k)` between steps; a key outside 0 to 15 is refused at the interface (R292, D29). -/
def State.hostPressKey (s : State) (k : Nat) : Option State :=
  if k < 16 then some (s.keyEvents [.press (BitVec.ofNat 4 k)]) else none

/-- `UnpressKey(k)` between steps (R293, D29). -/
def State.hostUnpressKey (s : State) (k : Nat) : Option State :=
  if k < 16 then some (s.keyEvents [.release (BitVec.ofNat 4 k)]) else none

/-- The framebuffer read: a snapshot, which changes nothing (R269, R353). -/
def State.readFramebuffer (s : State) : List Bool := Frame.snapshot s.pixels

/-- The status read (R352, D37). -/
def State.readStatus (s : State) : Status := s.status

end Sys2Proof.Machine
end

