-- ==== Sys2Proof/Safety.lean ====
section
/-! DEFINITION. What counts as a good state and how a run can stand, in the terms statements use
(spec/10_state.md R56, spec/70_reset_and_hazards.md R383). -/

namespace Sys2Proof.Machine

/-- The word that lies at the pc. -/
def State.wordAtPc (s : State) : Word :=
  wordOfBytes (Memory.read s.mem s.pc.toNat) (Memory.read s.mem (s.pc.toNat + 1))

/-- R56 (d): while the keyboard is Waiting, the word at pc is an Fx0A instruction. -/
def State.WaitsOnKeyInstr (s : State) : Prop :=
  s.waiting = true → ∃ x, decode s.wordAtPc = .ok (.ldVxK x)

/-- The invariants of R56, which hold in every state reachable from construction, with the model's
own: memory is canonical, the tick period is positive and no instant is negative.  R56 (a), SP at
most 16, is SP's type. -/
structure State.Inv (s : State) : Prop where
  /-- R56 (b). -/
  latchOnlyWaiting : s.waiting = false → s.latch = none
  /-- R56 (c). -/
  edgesClear : s.mustDraw = false ∧ s.mustBeep = false
  /-- R56 (d). -/
  waitsOnKeyInstr : s.WaitsOnKeyInstr
  /-- R56 (e), for DT. -/
  dtStarted : s.dt.tickStart ≤ s.now
  /-- R56 (e), for ST. -/
  stStarted : s.st.tickStart ≤ s.now
  /-- Memory is in its canonical form. -/
  memCanonical : Memory.wf s.mem = true
  /-- R7: TICK_PERIOD is a positive span. -/
  periodPositive : 0 < s.config.tickPeriod
  /-- R346: the clock's samples are non-negative. -/
  clockNonNegative : 0 ≤ s.now

/-- A run is parked at address `e` (R383, D25). -/
structure State.Parked (s : State) (e : Word) : Prop where
  running : s.status = .running
  atE : s.pc = e
  fetchable : e.toNat + 1 < s.config.fetchLimit.bound
  idle : s.waiting = false
  selfJump : e.toNat ≤ 0xFFF ∧ s.wordAtPc = 0x1000#16 ||| e

/-- A run is faulted (R383): never a normal end. -/
def State.Faulted (s : State) : Prop := ∃ f, s.status = .faulted f

/-- A run is waiting at address `e` (R383): not an end; only a host key press ends it. -/
def State.WaitingAt (s : State) (e : Word) : Prop := s.waiting = true ∧ s.pc = e

/-- A step is safe where it answers a next state: it neither faults nor is refused. -/
def State.StepsSafely (s : State) : Prop := ∃ t, step s = .next t

end Sys2Proof.Machine
end

