-- ==== Sys2Proof/Certificates/Slice0/Obligations.lean ====
section
/-! DEFINITION. The statements for the provers.  Each says what an instruction or the machine does, in
the terms of the spec's numbered rules.  A statement that gives `t = { s with regs := t.regs, … }`
says that the state changed in the named fields and in nothing else: every other register, flag,
special register, every byte of memory, the pixels, the keyboard and the timers are as before. -/

open Sys2Proof Sys2Proof.Machine

namespace Sys2Proof.Statements

/-- The pc after a handler whose verdict is Next: p + 2, or p while the keyboard waits (R146). -/
def pcAfterNext (s : State) : Word := if s.waiting then s.pc else s.pc + 2

/-- The pc after a skip instruction whose condition is `b`: p + 4 if the skip is taken (R146). -/
def pcAfterSkip (s : State) (b : Prop) [Decidable b] : Word := if b then s.pc + 4 else pcAfterNext s

/-- Some set bit of the `n`-row sprite at `a` lands on pixel (r, c) when it is drawn at column `cx`
and row `cy`: row k, bit j counted from the most significant (R261, R264). -/
def Covers (m : Memory) (a n : Nat) (cx cy : Byte) (r : Fin 32) (c : Fin 64) : Prop :=
  ∃ k < n, ∃ j < 8, (Memory.read m (a + k)).toNat / 2 ^ (7 - j) % 2 = 1 ∧
    (cy.toNat + k) % 32 = r.val ∧ (cx.toNat + j) % 64 = c.val

/-- One key event of the host, by the pseudocode of PressKey (R292) and UnpressKey (R293). -/
def hostKeyEvent (s : State) : KeyEvent → State
  | .press k => { s with
      keys := s.keys.set k.toNat true k.isLt
      latch := if s.waiting = true ∧ s.latch = none then some k else s.latch }
  | .release k => { s with keys := s.keys.set k.toNat false k.isLt }

/-- The general registers an instruction may write (R32): V[x]; V0 to V[x] for LOAD_REGS; and VF for
the six that write it as a flag. -/
def MayWriteReg : Instr → RegIdx → Prop
  | .ldVxKk x _, r | .addVxKk x _, r | .ldVxVy x _, r | .orVxVy x _, r | .andVxVy x _, r
  | .xorVxVy x _, r | .rnd x _, r | .ldVxDt x, r | .ldVxK x, r => r = x
  | .addVxVy x _, r | .sub x _, r | .shr x _, r | .subn x _, r | .shl x _, r => r = x ∨ r = VF
  | .loadRegs x, r => r.toNat ≤ x.toNat
  | .drw _ _ _, r => r = VF
  | .cls, _ | .ret, _ | .sys _, _ | .jp _, _ | .call _, _ | .seVxKk _ _, _ | .sneVxKk _ _, _
  | .seVxVy _ _, _ | .sneVxVy _ _, _ | .ldI _, _ | .jpV0 _, _ | .skp _, _ | .sknp _, _
  | .ldDtVx _, _ | .ldStVx _, _ | .addIVx _, _ | .ldFVx _, _ | .ldBVx _, _ | .storeRegs _, _ => False

end Sys2Proof.Statements

open Sys2Proof.Statements

/-! ### Construction and reset -/

/-- R48.  A construction leaves pc at ORIGIN, which is the first step's fetch address; the default
ORIGIN, at which State.reset stands, is 0x200. -/
def Obligations.ConstructionStartsAtOrigin : Prop :=
  (∀ cfg rom s, construct cfg rom = .ok s →
    s.pc.toNat = cfg.origin ∧
      (cfg.origin + 1 < s.config.fetchLimit.bound → ∃ w, s.beginStep.fetch = .ok w ∧
        w.toNat = (Memory.read s.mem cfg.origin).toNat * 256 + (Memory.read s.mem (cfg.origin + 1)).toNat)) ∧
  State.reset.pc = 0x200#16

/-- R371, R372 and R46 to R55.  A construction is admitted exactly for parameters in their ranges
(D23) and a ROM that fits, and it puts every piece of state at its parameter or, where the spec decides
(D13, D14, D16, D17), at the value of that decision.  The model's own choices are the stack's entries
(log entry 7), the representation of memory (log entry 8), and the values of `now`, `rnd`, `out` and of
the two fields of the schedule (log entry 26). -/
def Obligations.ConstructionSetsEveryField : Prop :=
  ∀ cfg rom,
    ((∃ s, construct cfg rom = .ok s) ↔
      80 ≤ cfg.origin ∧ cfg.origin ≤ 4094 ∧ 0 < cfg.run.tickPeriod ∧ 0 ≤ cfg.t0 ∧
        cfg.origin + rom.length ≤ 4096) ∧
    ∀ s, construct cfg rom = .ok s →
      s.regs = cfg.vInit ∧ s.i = cfg.iInit ∧ s.pc.toNat = cfg.origin ∧ s.sp.val = 0 ∧
      (∀ k, (h : k < 16) → s.stack[k] = 0) ∧
      (∀ a < 4096, Memory.read s.mem a = initialByte cfg rom a) ∧ Memory.wf s.mem = true ∧
      s.dt = ⟨cfg.dtInit, cfg.t0⟩ ∧ s.st = ⟨cfg.stInit, cfg.t0⟩ ∧ s.mustBeep = false ∧
      (∀ r c, Frame.pixel s.pixels r c = false) ∧ s.mustDraw = false ∧
      (∀ k, s.keyDown k = false) ∧ s.waiting = false ∧ s.latch = none ∧
      s.status = .running ∧ s.config = cfg.run ∧ s.now = cfg.t0 ∧
      s.rnd = 0 ∧ s.out = ⟨false, false⟩ ∧ s.inputs = [] ∧ s.inputsTaken = 0

/-- R54.  After construction memory holds the font at 0 to 79, the ROM verbatim from ORIGIN, and
MEM_FILL at every other address below 4096 (D13). -/
def Obligations.ConstructedMemoryHoldsFontRomAndFill : Prop :=
  ∀ cfg rom s, construct cfg rom = .ok s →
    (∀ a, (h : a < 80) → Memory.read s.mem a = cfg.font[a]) ∧
    (∀ k, (h : k < rom.length) → Memory.read s.mem (cfg.origin + k) = rom[k]) ∧
    (∀ a, 80 ≤ a → a < 4096 → (a < cfg.origin ∨ cfg.origin + rom.length ≤ a) →
      Memory.read s.mem a = cfg.memFill a)

/-- State.reset is the construction with the default parameters of R7, an empty ROM and T0 = 0: the
model's choice of a reset state (log entry 3). -/
def Obligations.ResetIsDefaultConstruction : Prop :=
  construct defaultConfig [] = .ok State.reset

/-- The invariant of R56 holds right after reset. -/
def Obligations.ResetMeetsInvariant : Prop := State.reset.Inv

/-- R56.  Every step keeps the invariants: the latch is empty unless the keyboard waits, the edge
flags are clear between steps, a waiting keyboard stands at an Fx0A word, no tick-start instant lies
after the clock; and, of the model, memory stays canonical and the period positive. -/
def Obligations.StepKeepsInvariant : Prop :=
  ∀ s t, s.Inv → step s = .next t → t.Inv

/-! ### The step -/

/-- R142, for each FETCH_LIMIT.  A Running core fetches the big-endian word at p and p + 1 where p + 1
is below FETCH_LIMIT, and else raises FetchOutOfBounds(p). -/
def Obligations.FetchReadsBigEndianOrFaults : Prop :=
  ∀ s : State, s.status = .running →
    (s.pc.toNat + 1 < s.config.fetchLimit.bound → ∃ w, s.beginStep.fetch = .ok w ∧
      w.toNat = (Memory.read s.mem s.pc.toNat).toNat * 256 + (Memory.read s.mem (s.pc.toNat + 1)).toNat) ∧
    (s.config.fetchLimit.bound ≤ s.pc.toNat + 1 → step s = .fault (.fetchOutOfBounds s.pc))

/-- R143.  A step that fetches an illegal word raises DecodeFault(w); one that fetches a legal word
raises no decode fault. -/
def Obligations.IllegalWordFaults : Prop :=
  ∀ s : State, s.status = .running → s.pc.toNat + 1 < s.config.fetchLimit.bound →
    ((∃ e, decode s.wordAtPc = .error e) → step s = .fault (.decodeFault s.pc s.wordAtPc)) ∧
    ((∃ i, decode s.wordAtPc = .ok i) → ∀ p w, step s ≠ .fault (.decodeFault p w))

/-- R150.  A step of a Running core, in one piece: the host's input, fetch, decode, exec of the
decoded instruction, then both Countdowns and the harvest; a fault sets the status and changes
nothing else of the core. -/
def Obligations.StepRunsDecodedInstruction : Prop :=
  ∀ s : State, s.status = .running →
    (s.config.fetchLimit.bound ≤ s.pc.toNat + 1 →
      step s = .fault (.fetchOutOfBounds s.pc) ∧
        s.after = { s.beginStep with status := .faulted (.fetchOutOfBounds s.pc) }) ∧
    (s.pc.toNat + 1 < s.config.fetchLimit.bound →
      (∀ e, decode s.wordAtPc = .error e →
        step s = .fault (.decodeFault s.pc s.wordAtPc) ∧
          s.after = { s.beginStep with status := .faulted (.decodeFault s.pc s.wordAtPc) }) ∧
      (∀ i, decode s.wordAtPc = .ok i →
        (∀ u, exec i s.beginStep = .next u →
          step s = .next { u with
            dt := u.dt.countdown u.config.tickPeriod u.now
            st := u.st.countdown u.config.tickPeriod u.now
            out := ⟨u.mustDraw, u.mustBeep || u.st.due u.config.tickPeriod u.now⟩
            mustDraw := false
            mustBeep := false }) ∧
        (∀ f, exec i s.beginStep = .fault f →
          step s = .fault f ∧ s.after = { s.beginStep with status := .faulted f })))

/-- R141 (D17).  A call of step on a Faulted core returns its fault again and changes nothing. -/
def Obligations.FaultedCoreStaysFaulted : Prop :=
  ∀ (s : State) f, s.status = .faulted f → step s = .fault f ∧ s.after = s

/-- R331, R332 (D12, D17, D18).  Every fault of a Running core records the pc of the faulting
instruction, and the faulted step leaves the state as the host's input left it, but for the status. -/
def Obligations.FaultsArePrecise : Prop :=
  ∀ (s : State) f, s.status = .running → step s = .fault f →
    f.pc = s.pc ∧ s.after = { s.beginStep with status := .faulted f }

/-- R8, R152, R292, R293, R346; the form of the host's input is the model's (log entry 1).  Between two
steps the key events of the next input, the head of the schedule or the free value past its end, are
applied in order, and the clock sample and the random byte are taken.  Nothing else changes but the
schedule; the clock does not go back; an Idle keyboard's latch is not touched, and a latched key stays
latched. -/
def Obligations.HostInputTouchesKeysAndClockOnly : Prop :=
  ∀ s : State,
    (∀ u us, s.inputs = u :: us → s.nextInput = u) ∧
    (s.inputs = [] → s.nextInput = Config.freeInput s.inputsTaken) ∧
    s.beginStep = { s.nextInput.events.foldl hostKeyEvent s with
      now := s.now + s.nextInput.elapsed.seconds, rnd := s.nextInput.rnd,
      inputs := s.inputs.tail, inputsTaken := s.inputsTaken + 1 } ∧
    s.beginStep = { s with
      keys := s.beginStep.keys, latch := s.beginStep.latch, now := s.beginStep.now,
      rnd := s.nextInput.rnd, inputs := s.inputs.tail, inputsTaken := s.inputsTaken + 1 } ∧
    s.now ≤ s.beginStep.now ∧
    (s.waiting = false → s.beginStep.latch = s.latch) ∧
    (∀ k, s.latch = some k → s.beginStep.latch = some k)

/-- R85 (D27).  A word stored by STORE_REGS right after itself is the word the next step fetches. -/
def Obligations.StoredWordIsFetchedNext : Prop :=
  ∀ (x : RegIdx) (s t : State), 1 ≤ x.toNat → s.waiting = false → s.i.toNat = s.pc.toNat + 2 →
    exec (.storeRegs x) s = .next t →
    t.wordAtPc.toNat = (s.v 0).toNat * 256 + (s.v 1).toNat

/-! ### Encoding -/

/-- Every well-formed instruction, with every operand at every value, decodes from its encoding
(R103 to R105; the priority of 00E0 and 00EE is D21).  SHR and SHL are instructions with their ignored y
field, which is the model's choice (log entry 21). -/
def Obligations.DecodeOfEncodeIsTheInstruction : Prop :=
  ∀ i : Instr, i.wellFormed = true → decode (encode i) = .ok i

/-- Every legal word has one meaning (R104, R105, R111): the instruction it decodes to is well formed
and encodes to that word.  That the encoding is the word itself, for 8xy6 and 8xyE with y not 0 too, is
the model's choice (log entry 21): its SHR and SHL keep the y field, which every decode of R103 ignores
and where the encoder of R109 puts 0, as `assembleShr` and `assembleShl` do. -/
def Obligations.EncodeOfDecodeIsTheWord : Prop :=
  ∀ (w : Word) (i : Instr), decode w = .ok i → i.wellFormed = true ∧ encode i = w

/-- R105.  The word of the decoded row matches the row's mask and match, and every row of the opcode
map that a word selects is the row it decodes to, but for 00E0 and 00EE, which also match 0nnn. -/
def Obligations.OpcodeMapSelectsTheRow : Prop :=
  ∀ w : Word,
    (∀ j, decode w = .ok j → w &&& rowMask j = rowMatch j) ∧
    (∀ i, w &&& rowMask i = rowMatch i → ∃ j, decode w = .ok j ∧
      ((rowMask j = rowMask i ∧ rowMatch j = rowMatch i) ∨
        (rowMatch i = 0x0000#16 ∧ (j = .cls ∨ j = .ret))))

/-- The five classes of illegal words of R106, and no other word, are rejected. -/
def Obligations.IllegalWordsAreExactlyTheFiveClasses : Prop :=
  ∀ w : Word, (∃ e, decode w = .error e) ↔
    (fieldS w = 5 ∧ fieldN w ≠ 0) ∨ (fieldS w = 9 ∧ fieldN w ≠ 0) ∨
    (fieldS w = 8 ∧ (8 ≤ (fieldN w).toNat ∧ (fieldN w).toNat ≠ 14)) ∨
    (fieldS w = 14 ∧ fieldKK w ≠ 0x9E ∧ fieldKK w ≠ 0xA1) ∨
    (fieldS w = 15 ∧ ¬ fieldKK w ∈ [0x07, 0x0A, 0x15, 0x18, 0x1E, 0x29, 0x33, 0x55, 0x65])

/-- R101.  The six fields by the source's arithmetic, how they overlap, and the source's example. -/
def Obligations.WordFieldsAreTheSourcesArithmetic : Prop :=
  (∀ w : Word,
    (fieldS w).toNat = w.toNat >>> 12 ∧
    (fieldX w).toNat = (w.toNat >>> 8) &&& 0xF ∧
    (fieldY w).toNat = (w.toNat >>> 4) &&& 0xF ∧
    (fieldN w).toNat = w.toNat &&& 0xF ∧
    (fieldKK w).toNat = w.toNat &&& 0xFF ∧
    (fieldNNN w).toNat = w.toNat &&& 0xFFF ∧
    (fieldKK w).toNat = (fieldY w).toNat * 16 + (fieldN w).toNat ∧
    (fieldNNN w).toNat = (fieldX w).toNat * 256 + (fieldY w).toNat * 16 + (fieldN w).toNat) ∧
  (fieldS 0x1234 = 1 ∧ fieldX 0x1234 = 2 ∧ fieldY 0x1234 = 3 ∧ fieldN 0x1234 = 4 ∧
    fieldKK 0x1234 = 0x34 ∧ fieldNNN 0x1234 = 0x234)

/-- Words of the spec's own test vectors (spec/95_test_vectors.md W4, VX1 to VX17) decode to the
instructions they stand for: a sanity statement. -/
def Obligations.SampleWordsDecode : Prop :=
  decode 0x1234 = .ok (.jp 0x234) ∧ decode 0x00E0 = .ok .cls ∧ decode 0x00EE = .ok .ret ∧
  decode 0x00FE = .ok (.sys 0x0FE) ∧ decode 0x5120 = .ok (.seVxVy 1 2) ∧
  decode 0x800E = .ok (.shl 0 0) ∧ decode 0xE19E = .ok (.skp 1) ∧ decode 0xF129 = .ok (.ldFVx 1) ∧
  decode 0xD120 = .ok (.drw 1 2 0) ∧ decode 0x5121 = .error (.illegalWord 0x5121) ∧
  decode 0xF075 = .error (.illegalWord 0xF075)

/-! ### Control flow and the return stack -/

/-- R107, R172.  Every word 0nnn but 00E0 and 00EE is SYS, and SYS changes nothing but the pc, which
advances. -/
def Obligations.SysIsANoOp : Prop :=
  (∀ nnn : Imm12, nnn ≠ 0x0E0 → nnn ≠ 0x0EE → decode (packA 0x0 nnn) = .ok (.sys nnn)) ∧
  ∀ (nnn : Imm12) (s : State), ∃ t, exec (.sys nnn) s = .next t ∧ t.pc = pcAfterNext s ∧
    t = { s with pc := t.pc }

/-- R171, R173.  RET pops the most recently pushed address into pc and lowers SP by one, changing
nothing else; with SP = 0 it raises StackUnderflow. -/
def Obligations.RetPopsThePc : Prop :=
  decode 0x00EE = .ok .ret ∧ ∀ s : State,
    (s.sp.val = 0 → exec .ret s = .fault (.stackUnderflow s.pc)) ∧
    (0 < s.sp.val → ∃ t, exec .ret s = .next t ∧ (∀ h : s.sp.val - 1 < 16, t.pc = s.stack[s.sp.val - 1]) ∧
      t.sp.val = s.sp.val - 1 ∧ t = { s with pc := t.pc, sp := t.sp })

/-- R174.  JP nnn sets pc to nnn and changes nothing else. -/
def Obligations.JpSetsThePc : Prop :=
  ∀ (nnn : Imm12) (s : State), decode (packA 0x1 nnn) = .ok (.jp nnn) ∧
    ∃ t, exec (.jp nnn) s = .next t ∧ t.pc.toNat = nnn.toNat ∧
    t = { s with pc := t.pc }

/-- R170, R175 (D2, D39).  CALL pushes p + 2 at stack[SP], raises SP by one and jumps to nnn, changing
nothing else; with SP = 16 it raises StackOverflow.  That p + 2 is pushed is the spec's decision D2. -/
def Obligations.CallPushesTheReturnAddress : Prop :=
  ∀ (nnn : Imm12) (s : State),
    (s.sp.val = 16 → exec (.call nnn) s = .fault (.stackOverflow s.pc)) ∧
    (∀ h : s.sp.val < 16, ∃ t, exec (.call nnn) s = .next t ∧ t.pc.toNat = nnn.toNat ∧
      t.sp.val = s.sp.val + 1 ∧ t.stack[s.sp.val] = s.pc + 2 ∧
      (∀ k, (hk : k < 16) → k ≠ s.sp.val → t.stack[k] = s.stack[k]) ∧
      t = { s with pc := t.pc, sp := t.sp, stack := t.stack })

/-- R175 with R173 (D2).  A CALL and then a RET come back to the instruction after the CALL with SP as
it was; nothing but pc and the stack entry at SP, which is free before and after, differs. -/
def Obligations.CallThenRetReturns : Prop :=
  ∀ (nnn : Imm12) (s : State), s.sp.val < 16 →
    ∃ t u, exec (.call nnn) s = .next t ∧ exec .ret t = .next u ∧ u.pc = s.pc + 2 ∧
      u.sp = s.sp ∧ (∀ k, (hk : k < 16) → k ≠ s.sp.val → u.stack[k] = s.stack[k]) ∧
      u = { s with pc := u.pc, stack := u.stack }

/-- R176, R177.  SE and SNE with an immediate skip the next instruction if V[x] equals, or does not
equal, kk; they change nothing but the pc. -/
def Obligations.SkipsOnImmediate : Prop :=
  ∀ (x : RegIdx) (kk : Byte) (s : State),
    decode (packXK 0x3 x kk) = .ok (.seVxKk x kk) ∧ decode (packXK 0x4 x kk) = .ok (.sneVxKk x kk) ∧
    (∃ t, exec (.seVxKk x kk) s = .next t ∧ t.pc = pcAfterSkip s (s.v x = kk) ∧ t = { s with pc := t.pc }) ∧
    (∃ t, exec (.sneVxKk x kk) s = .next t ∧ t.pc = pcAfterSkip s (s.v x ≠ kk) ∧ t = { s with pc := t.pc })

/-- R178, R179.  SE and SNE of two registers skip if they are equal, or differ; for x = y the skip is
always, or never, taken; they change nothing but the pc. -/
def Obligations.SkipsOnRegisters : Prop :=
  ∀ (x y : RegIdx) (s : State),
    decode (packXYN 0x5 x y 0x0) = .ok (.seVxVy x y) ∧ decode (packXYN 0x9 x y 0x0) = .ok (.sneVxVy x y) ∧
    (∃ t, exec (.seVxVy x y) s = .next t ∧ t.pc = pcAfterSkip s (s.v x = s.v y) ∧
      (x = y → t.pc = s.pc + 4) ∧ t = { s with pc := t.pc }) ∧
    (∃ t, exec (.sneVxVy x y) s = .next t ∧ t.pc = pcAfterSkip s (s.v x ≠ s.v y) ∧
      (x = y → t.pc = pcAfterNext s) ∧ t = { s with pc := t.pc })

/-- R180.  JP V0 sets pc to nnn + V0, not reduced, and changes nothing else. -/
def Obligations.JpV0AddsV0 : Prop :=
  ∀ (nnn : Imm12) (s : State), decode (packA 0xB nnn) = .ok (.jpV0 nnn) ∧ ∃ t, exec (.jpV0 nnn) s = .next t ∧
    t.pc.toNat = nnn.toNat + (s.v 0).toNat ∧ t = { s with pc := t.pc }

/-! ### Register loads and the ALU -/

/-- R202.  LD Vx, kk, at every word 6xkk, puts kk in V[x] and changes nothing else but the pc. -/
def Obligations.LdVxKkLoads : Prop :=
  ∀ (x : RegIdx) (kk : Byte) (s : State), decode (packXK 0x6 x kk) = .ok (.ldVxKk x kk) ∧
    ∃ t, exec (.ldVxKk x kk) s = .next t ∧ t.v x = kk ∧
    (∀ r, r ≠ x → t.v r = s.v r) ∧ t.pc = pcAfterNext s ∧ t = { s with regs := t.regs, pc := t.pc }

/-- R203.  ADD Vx, kk wraps modulo 256 and records no carry. -/
def Obligations.AddVxKkWrapsWithoutFlag : Prop :=
  ∀ (x : RegIdx) (kk : Byte) (s : State), decode (packXK 0x7 x kk) = .ok (.addVxKk x kk) ∧
    ∃ t, exec (.addVxKk x kk) s = .next t ∧
    (t.v x).toNat = ((s.v x).toNat + kk.toNat) % 256 ∧
    (∀ r, r ≠ x → t.v r = s.v r) ∧ t.pc = pcAfterNext s ∧ t = { s with regs := t.regs, pc := t.pc }

/-- R204.  LD Vx, Vy copies V[y]; with x = y nothing changes but the pc. -/
def Obligations.LdVxVyCopies : Prop :=
  ∀ (x y : RegIdx) (s : State), decode (packXYN 0x8 x y 0x0) = .ok (.ldVxVy x y) ∧
    ∃ t, exec (.ldVxVy x y) s = .next t ∧ t.v x = s.v y ∧ (x = y → t.regs = s.regs) ∧
    (∀ r, r ≠ x → t.v r = s.v r) ∧ t.pc = pcAfterNext s ∧ t = { s with regs := t.regs, pc := t.pc }

/-- R205, R206, R207.  OR, AND and XOR act on each bit of V[x] and V[y] and write no flag. -/
def Obligations.LogicActsBitwiseWithoutFlag : Prop :=
  ∀ (x y : RegIdx) (s : State),
    decode (packXYN 0x8 x y 0x1) = .ok (.orVxVy x y) ∧ decode (packXYN 0x8 x y 0x2) = .ok (.andVxVy x y) ∧
    decode (packXYN 0x8 x y 0x3) = .ok (.xorVxVy x y) ∧
    (∃ t, exec (.orVxVy x y) s = .next t ∧
      (∀ j < 8, (t.v x).getLsbD j = ((s.v x).getLsbD j || (s.v y).getLsbD j)) ∧
      (∀ r, r ≠ x → t.v r = s.v r) ∧ t.pc = pcAfterNext s ∧ t = { s with regs := t.regs, pc := t.pc }) ∧
    (∃ t, exec (.andVxVy x y) s = .next t ∧
      (∀ j < 8, (t.v x).getLsbD j = ((s.v x).getLsbD j && (s.v y).getLsbD j)) ∧
      (∀ r, r ≠ x → t.v r = s.v r) ∧ t.pc = pcAfterNext s ∧ t = { s with regs := t.regs, pc := t.pc }) ∧
    (∃ t, exec (.xorVxVy x y) s = .next t ∧
      (∀ j < 8, (t.v x).getLsbD j = ((s.v x).getLsbD j ^^ (s.v y).getLsbD j)) ∧
      (∀ r, r ≠ x → t.v r = s.v r) ∧ t.pc = pcAfterNext s ∧ t = { s with regs := t.regs, pc := t.pc })

/-- R208.  ADD Vx, Vy: V[x] gets the sum modulo 256 and VF the carry; with x = F, VF ends holding the
carry. -/
def Obligations.AddVxVySetsCarry : Prop :=
  ∀ (x y : RegIdx) (s : State), decode (packXYN 0x8 x y 0x4) = .ok (.addVxVy x y) ∧
    ∃ t, exec (.addVxVy x y) s = .next t ∧
    (t.v VF).toNat = (if (s.v x).toNat + (s.v y).toNat > 255 then 1 else 0) ∧
    (x ≠ VF → (t.v x).toNat = ((s.v x).toNat + (s.v y).toNat) % 256) ∧
    (∀ r, r ≠ x → r ≠ VF → t.v r = s.v r) ∧ t.pc = pcAfterNext s ∧
    t = { s with regs := t.regs, pc := t.pc }

/-- R209, R211.  SUB gives V[x] - V[y] and SUBN gives V[y] - V[x], modulo 256, and VF is 1 if the
minuend was strictly greater, else 0; with x = F, VF ends holding the flag. -/
def Obligations.SubAndSubnSetNoBorrow : Prop :=
  ∀ (x y : RegIdx) (s : State),
    decode (packXYN 0x8 x y 0x5) = .ok (.sub x y) ∧ decode (packXYN 0x8 x y 0x7) = .ok (.subn x y) ∧
    (∃ t, exec (.sub x y) s = .next t ∧
      (t.v VF).toNat = (if (s.v x).toNat > (s.v y).toNat then 1 else 0) ∧
      (x ≠ VF → (t.v x).toNat = ((s.v x).toNat + 256 - (s.v y).toNat) % 256) ∧
      (∀ r, r ≠ x → r ≠ VF → t.v r = s.v r) ∧ t.pc = pcAfterNext s ∧
      t = { s with regs := t.regs, pc := t.pc }) ∧
    (∃ t, exec (.subn x y) s = .next t ∧
      (t.v VF).toNat = (if (s.v y).toNat > (s.v x).toNat then 1 else 0) ∧
      (x ≠ VF → (t.v x).toNat = ((s.v y).toNat + 256 - (s.v x).toNat) % 256) ∧
      (∀ r, r ≠ x → r ≠ VF → t.v r = s.v r) ∧ t.pc = pcAfterNext s ∧
      t = { s with regs := t.regs, pc := t.pc })

/-- R210.  SHR: V[x] halves, VF gets its bit 0, and V[y] is neither read nor written; with x = F, VF
ends as each value of VF_WRITE_ORDER gives it. -/
def Obligations.ShrShiftsVx : Prop :=
  ∀ (x y : RegIdx) (s : State), decode (packXYN 0x8 x y 0x6) = .ok (.shr x y) ∧
    ∃ t, exec (.shr x y) s = .next t ∧
    (x ≠ VF → (t.v x).toNat = (s.v x).toNat / 2 ∧ (t.v VF).toNat = (s.v x).toNat % 2) ∧
    (x = VF → (t.v VF).toNat = match s.config.vfWriteOrder with
      | .sequential => 0
      | .resultLast => (s.v VF).toNat / 2
      | .flagLast => (s.v VF).toNat % 2) ∧
    (∀ r, r ≠ x → r ≠ VF → t.v r = s.v r) ∧ t.pc = pcAfterNext s ∧
    t = { s with regs := t.regs, pc := t.pc }

/-- R212.  SHL: V[x] doubles modulo 256, VF gets its bit 7, and V[y] is neither read nor written; with
x = F, VF ends as each value of VF_WRITE_ORDER gives it. -/
def Obligations.ShlShiftsVx : Prop :=
  ∀ (x y : RegIdx) (s : State), decode (packXYN 0x8 x y 0xE) = .ok (.shl x y) ∧
    ∃ t, exec (.shl x y) s = .next t ∧
    (x ≠ VF → (t.v x).toNat = (s.v x).toNat * 2 % 256 ∧ (t.v VF).toNat = (s.v x).toNat / 128) ∧
    (x = VF → (t.v VF).toNat = match s.config.vfWriteOrder with
      | .sequential => (s.v VF).toNat / 128 * 2
      | .resultLast => (s.v VF).toNat * 2 % 256
      | .flagLast => (s.v VF).toNat / 128) ∧
    (∀ r, r ≠ x → r ≠ VF → t.v r = s.v r) ∧ t.pc = pcAfterNext s ∧
    t = { s with regs := t.regs, pc := t.pc }

/-- R213 (D22).  RND puts the step's random byte under the mask kk in V[x], whatever that byte is;
with kk = 0 the result is 0 and with kk = 0xFF the byte itself.  The byte is a free value. -/
def Obligations.RndMasksTheRandomByte : Prop :=
  ∀ (x : RegIdx) (kk : Byte) (s : State), ∃ t, exec (.rnd x kk) s = .next t ∧
    (∀ j < 8, (t.v x).getLsbD j = (s.rnd.getLsbD j && kk.getLsbD j)) ∧
    (kk = 0 → t.v x = 0) ∧ (kk = 0xFF → t.v x = s.rnd) ∧
    (∀ r, r ≠ x → t.v r = s.v r) ∧ t.pc = pcAfterNext s ∧ t = { s with regs := t.regs, pc := t.pc }

/-! ### The index register and memory blocks -/

/-- R230.  LD I, nnn sets I to nnn and changes nothing else but the pc. -/
def Obligations.LdISetsIndex : Prop :=
  ∀ (nnn : Imm12) (s : State), decode (packA 0xA nnn) = .ok (.ldI nnn) ∧
    ∃ t, exec (.ldI nnn) s = .next t ∧ t.i.toNat = nnn.toNat ∧
    t.pc = pcAfterNext s ∧ t = { s with i := t.i, pc := t.pc }

/-- R231.  ADD I, Vx adds V[x] to I and writes no flag; that a sum beyond 0xFFFF wraps is the spec's
decision D10. -/
def Obligations.AddIVxWrapsWithoutFlag : Prop :=
  ∀ (x : RegIdx) (s : State), ∃ t, exec (.addIVx x) s = .next t ∧
    t.i.toNat = (s.i.toNat + (s.v x).toNat) % 65536 ∧
    t.pc = pcAfterNext s ∧ t = { s with i := t.i, pc := t.pc }

/-- R232.  LD F, Vx sets I to 5 · V[x] for a digit (the address is D7) and raises FontDigitFault above
15 (D36). -/
def Obligations.LdFVxPointsAtTheGlyph : Prop :=
  ∀ (x : RegIdx) (s : State),
    ((s.v x).toNat ≤ 15 → ∃ t, exec (.ldFVx x) s = .next t ∧ t.i.toNat = 5 * (s.v x).toNat ∧
      t.pc = pcAfterNext s ∧ t = { s with i := t.i, pc := t.pc }) ∧
    (15 < (s.v x).toNat → exec (.ldFVx x) s = .fault (.fontDigitFault s.pc (s.v x)))

/-- R233.  LD B, Vx stores the hundreds, tens and ones digits of V[x] at I, I + 1 and I + 2 and changes
no other byte; out of bounds it raises MemOutOfBounds(I, 3), and in the font under FONT_WRITE = fault
FontWriteFault(I). -/
def Obligations.LdBVxStoresDigits : Prop :=
  ∀ (x : RegIdx) (s : State),
    decode (packXK 0xF x 0x33) = .ok (.ldBVx x) ∧
    (4096 < s.i.toNat + 3 → exec (.ldBVx x) s = .fault (.memOutOfBounds s.pc s.i 3)) ∧
    (s.config.fontWrite = .fault → s.i.toNat < 80 → exec (.ldBVx x) s = .fault (.fontWriteFault s.pc s.i)) ∧
    (s.i.toNat + 3 ≤ 4096 → ¬ (s.config.fontWrite = .fault ∧ s.i.toNat < 80) →
      ∃ t, exec (.ldBVx x) s = .next t ∧
        (Memory.read t.mem s.i.toNat).toNat = (s.v x).toNat / 100 ∧
        (Memory.read t.mem (s.i.toNat + 1)).toNat = (s.v x).toNat / 10 % 10 ∧
        (Memory.read t.mem (s.i.toNat + 2)).toNat = (s.v x).toNat % 10 ∧
        (∀ a, a < s.i.toNat ∨ s.i.toNat + 3 ≤ a → Memory.read t.mem a = Memory.read s.mem a) ∧
        t.pc = pcAfterNext s ∧ t = { s with mem := t.mem, pc := t.pc })

/-- R234.  LD [I], Vx stores V0 to V[x] at I up and changes no other byte; out of bounds it raises
MemOutOfBounds(I, x + 1), and in the font under FONT_WRITE = fault FontWriteFault(I).  That I is
unchanged is the spec's decision D11. -/
def Obligations.StoreRegsStoresV0ToVx : Prop :=
  ∀ (x : RegIdx) (s : State),
    (4096 < s.i.toNat + x.toNat + 1 →
      exec (.storeRegs x) s = .fault (.memOutOfBounds s.pc s.i (x.toNat + 1))) ∧
    (s.config.fontWrite = .fault → s.i.toNat < 80 →
      exec (.storeRegs x) s = .fault (.fontWriteFault s.pc s.i)) ∧
    (s.i.toNat + x.toNat + 1 ≤ 4096 → ¬ (s.config.fontWrite = .fault ∧ s.i.toNat < 80) →
      ∃ t, exec (.storeRegs x) s = .next t ∧
        (∀ r : RegIdx, r.toNat ≤ x.toNat → Memory.read t.mem (s.i.toNat + r.toNat) = s.v r) ∧
        (∀ a, a < s.i.toNat ∨ s.i.toNat + x.toNat + 1 ≤ a → Memory.read t.mem a = Memory.read s.mem a) ∧
        t.pc = pcAfterNext s ∧ t = { s with mem := t.mem, pc := t.pc })

/-- R235.  LD Vx, [I] loads V0 to V[x] from I up and changes no other register; out of bounds it raises
MemOutOfBounds(I, x + 1).  That I is unchanged is the spec's decision D11. -/
def Obligations.LoadRegsLoadsV0ToVx : Prop :=
  ∀ (x : RegIdx) (s : State),
    (4096 < s.i.toNat + x.toNat + 1 →
      exec (.loadRegs x) s = .fault (.memOutOfBounds s.pc s.i (x.toNat + 1))) ∧
    (s.i.toNat + x.toNat + 1 ≤ 4096 →
      ∃ t, exec (.loadRegs x) s = .next t ∧
        (∀ r : RegIdx, r.toNat ≤ x.toNat → t.v r = Memory.read s.mem (s.i.toNat + r.toNat)) ∧
        (∀ r : RegIdx, x.toNat < r.toNat → t.v r = s.v r) ∧
        t.pc = pcAfterNext s ∧ t = { s with regs := t.regs, pc := t.pc })

/-! ### The display -/

/-- R263, R266.  CLS turns every pixel off and sets must_draw, so that the step's redraw output is
true, and changes nothing else but the pc. -/
def Obligations.ClsClearsTheDisplay : Prop :=
  decode 0x00E0 = .ok .cls ∧
    ∀ s : State, ∃ t, exec .cls s = .next t ∧ (∀ r c, Frame.pixel t.pixels r c = false) ∧
    t.mustDraw = true ∧ t.endStep.out.redraw = true ∧ t.pc = pcAfterNext s ∧
    t = { s with pixels := t.pixels, mustDraw := t.mustDraw, pc := t.pc }

/-- R264, R265, R267.  DRW XORs the n bytes at I onto the pixels at column V[x] and row V[y], wrapping
at both edges: a pixel changes exactly where a set sprite bit lands; VF is 1 exactly where one landed
on a lit pixel.  It faults if I + n exceeds 4096, n = 0 included.  The bit order is D6 and the n = 0
form D20. -/
def Obligations.DrwXorsTheSprite : Prop :=
  ∀ (x y : RegIdx) (n : BitVec 4) (s : State),
    (4096 < s.i.toNat + n.toNat → exec (.drw x y n) s = .fault (.memOutOfBounds s.pc s.i n.toNat)) ∧
    (s.i.toNat + n.toNat ≤ 4096 → ∃ t, exec (.drw x y n) s = .next t ∧
      (∀ r c, (Frame.pixel t.pixels r c ≠ Frame.pixel s.pixels r c) ↔
        Covers s.mem s.i.toNat n.toNat (s.v x) (s.v y) r c) ∧
      ((∃ r c, Frame.pixel s.pixels r c = true ∧ Covers s.mem s.i.toNat n.toNat (s.v x) (s.v y) r c) →
        t.v VF = 1) ∧
      ((¬ ∃ r c, Frame.pixel s.pixels r c = true ∧ Covers s.mem s.i.toNat n.toNat (s.v x) (s.v y) r c) →
        t.v VF = 0) ∧
      (∀ r, r ≠ VF → t.v r = s.v r) ∧ t.mustDraw = true ∧ t.pc = pcAfterNext s ∧
      t = { s with pixels := t.pixels, mustDraw := t.mustDraw, regs := t.regs, pc := t.pc })

/-- R265.  DrawSprite reports a collision exactly when some pixel goes from on to off during the draw,
for every sprite of 0 to 15 bytes; an empty or zero sprite never does.  That such a sprite changes no
pixel is R268 (c), which the spec marks as derived from R264 and R265. -/
def Obligations.CollisionIsAPixelTurnedOff : Prop :=
  ∀ (f : Frame) (bs : List Byte) (cx cy : Byte), bs.length ≤ 15 →
    ((Frame.drawSprite f bs cx cy).2 = true ↔
      ∃ r c, Frame.pixel f r c = true ∧ Frame.pixel (Frame.drawSprite f bs cx cy).1 r c = false) ∧
    ((∀ b ∈ bs, b = 0) → (Frame.drawSprite f bs cx cy).2 = false ∧ (Frame.drawSprite f bs cx cy).1 = f)

/-- R268 (b).  A sprite of at most 15 bytes drawn twice at one place leaves the display as it was, and
the second draw collides exactly when the first turned some pixel on. -/
def Obligations.DrawingTwiceRestoresTheDisplay : Prop :=
  ∀ (f : Frame) (bs : List Byte) (cx cy : Byte), bs.length ≤ 15 →
    (Frame.drawSprite (Frame.drawSprite f bs cx cy).1 bs cx cy).1 = f ∧
    ((Frame.drawSprite (Frame.drawSprite f bs cx cy).1 bs cx cy).2 = true ↔
      ∃ r c, Frame.pixel f r c = false ∧ Frame.pixel (Frame.drawSprite f bs cx cy).1 r c = true)

/-- R148, R262 (D20).  On a core whose redraw flag is clear, a step returns redraw exactly if it ran CLS
or DRW. -/
def Obligations.RedrawExactlyOnClsOrDrw : Prop :=
  ∀ s t : State, s.mustDraw = false → step s = .next t →
    (t.out.redraw = true ↔
      decode s.wordAtPc = .ok .cls ∨ ∃ x y n, decode s.wordAtPc = .ok (.drw x y n))

/-! ### The keyboard -/

/-- R294, R295.  SKP and SKNP skip if key V[x] is pressed, or not pressed, and change nothing but the
pc; above 15 they raise KeyIndexFault, which is the spec's decision D9. -/
def Obligations.SkipsOnKeys : Prop :=
  ∀ (x : RegIdx) (s : State),
    (15 < (s.v x).toNat → exec (.skp x) s = .fault (.keyIndexFault s.pc (s.v x)) ∧
      exec (.sknp x) s = .fault (.keyIndexFault s.pc (s.v x))) ∧
    (∀ k : Key, k.toNat = (s.v x).toNat →
      (∃ t, exec (.skp x) s = .next t ∧ t.pc = pcAfterSkip s (s.keyDown k = true) ∧
        t = { s with pc := t.pc }) ∧
      (∃ t, exec (.sknp x) s = .next t ∧ t.pc = pcAfterSkip s (s.keyDown k = false) ∧
        t = { s with pc := t.pc }))

/-- R291, R296 (D19, D33).  The key wait: from Idle it enters Waiting and holds the pc; waiting with an
empty latch it stays so; waiting with key k latched it writes k to V[x], empties the latch, goes back
to Idle and advances.  It changes nothing else. -/
def Obligations.LdVxKWaitsForAKey : Prop :=
  ∀ (x : RegIdx) (s : State), ∃ t, exec (.ldVxK x) s = .next t ∧
    (s.waiting = false → t.waiting = true ∧ t.latch = s.latch ∧ t.regs = s.regs ∧ t.pc = s.pc) ∧
    (s.waiting = true → s.latch = none →
      t.waiting = true ∧ t.latch = none ∧ t.regs = s.regs ∧ t.pc = s.pc) ∧
    (∀ k, s.waiting = true → s.latch = some k →
      t.waiting = false ∧ t.latch = none ∧ (t.v x).toNat = k.toNat ∧ (∀ r, r ≠ x → t.v r = s.v r) ∧
        t.pc = s.pc + 2) ∧
    t = { s with waiting := t.waiting, latch := t.latch, regs := t.regs, pc := t.pc }

/-- R293.  UnpressKey(k) clears key k's state and changes nothing else, the latch included.  A key
outside 0 to 15 is refused (R352, the spec's decision D29). -/
def Obligations.UnpressKeyClearsTheKey : Prop :=
  ∀ (s : State) (k : Nat),
    (16 ≤ k → s.hostUnpressKey k = none) ∧
    (k < 16 → ∃ t, s.hostUnpressKey k = some t ∧
      t.keyDown (BitVec.ofNat 4 k) = false ∧
      (∀ q : Key, q.toNat ≠ k → t.keyDown q = s.keyDown q) ∧ t.latch = s.latch ∧
      t = { s with keys := t.keys })

/-- R292.  PressKey(k) sets key k's state; it latches k only while Waiting with an empty latch, so the
first key wins; it changes nothing else.  A key outside 0 to 15 is refused (D29). -/
def Obligations.PressKeyLatchesTheFirstKey : Prop :=
  ∀ (s : State) (k : Nat),
    (16 ≤ k → s.hostPressKey k = none) ∧
    (k < 16 → ∃ t, s.hostPressKey k = some t ∧
      t.keyDown (BitVec.ofNat 4 k) = true ∧
      (∀ q : Key, q.toNat ≠ k → t.keyDown q = s.keyDown q) ∧
      (s.waiting = true → s.latch = none → t.latch = some (BitVec.ofNat 4 k)) ∧
      (s.waiting = false ∨ s.latch ≠ none → t.latch = s.latch) ∧
      t = { s with keys := t.keys, latch := t.latch })

/-! ### The timers -/

/-- R310.  LD Vx, DT reads DT as the step before left it and changes nothing else; the decrement due on
its own step comes after it (an inference the spec marks as derived). -/
def Obligations.LdVxDtReadsTheDelayTimer : Prop :=
  (∀ (x : RegIdx) (s : State), ∃ t, exec (.ldVxDt x) s = .next t ∧ t.v x = s.dt.count ∧
    (∀ r, r ≠ x → t.v r = s.v r) ∧ t.pc = pcAfterNext s ∧ t = { s with regs := t.regs, pc := t.pc }) ∧
  (∀ (x : RegIdx) (s t : State), decode s.wordAtPc = .ok (.ldVxDt x) → step s = .next t →
    t.v x = s.dt.count)

/-- R347.  LD DT, Vx and LD ST, Vx are SetTime: the register gets V[x] and the tick-start instant the
step's clock sample; ST's beep flag is not touched, and nothing else changes but the pc. -/
def Obligations.SetTimeSetsRegisterAndPhase : Prop :=
  ∀ (x : RegIdx) (s : State),
    (∃ t, exec (.ldDtVx x) s = .next t ∧ t.dt.count = s.v x ∧ t.dt.tickStart = s.now ∧
      t.pc = pcAfterNext s ∧ t = { s with dt := t.dt, pc := t.pc }) ∧
    (∃ t, exec (.ldStVx x) s = .next t ∧ t.st.count = s.v x ∧ t.st.tickStart = s.now ∧
      t.mustBeep = s.mustBeep ∧ t.pc = pcAfterNext s ∧ t = { s with st := t.st, pc := t.pc })

/-- R348.  Phase 6: each timer that is not 0 and whose tick-start instant lies at least TICK_PERIOD
back decrements by exactly 1 and restarts its period, ST setting the beep flag; any other is left as
it is; nothing else changes. -/
def Obligations.CountdownDecrementsWhenDue : Prop :=
  ∀ s : State,
    (s.dt.count ≠ 0 → s.config.tickPeriod ≤ s.now - s.dt.tickStart →
      s.tick.dt.count.toNat + 1 = s.dt.count.toNat ∧ s.tick.dt.tickStart = s.now) ∧
    (¬ (s.dt.count ≠ 0 ∧ s.config.tickPeriod ≤ s.now - s.dt.tickStart) → s.tick.dt = s.dt) ∧
    (s.st.count ≠ 0 → s.config.tickPeriod ≤ s.now - s.st.tickStart →
      s.tick.st.count.toNat + 1 = s.st.count.toNat ∧ s.tick.st.tickStart = s.now ∧
        s.tick.mustBeep = true) ∧
    (¬ (s.st.count ≠ 0 ∧ s.config.tickPeriod ≤ s.now - s.st.tickStart) →
      s.tick.st = s.st ∧ s.tick.mustBeep = s.mustBeep) ∧
    s.tick = { s with dt := s.tick.dt, st := s.tick.st, mustBeep := s.tick.mustBeep }

/-- R349.  On a core whose beep flag is clear, a step returns beep exactly if its Countdown took ST from
some v ≥ 1 to v - 1; `u` is the state the step's instruction left. -/
def Obligations.BeepExactlyOnDecrement : Prop :=
  ∀ s t : State, s.mustBeep = false → step s = .next t →
    ∃ i u, decode s.wordAtPc = .ok i ∧ exec i s.beginStep = .next u ∧
      (t.out.beep = true ↔ t.st.count.toNat + 1 = u.st.count.toNat)

/-- R344.  A step that sets no timer changes each timer by at most 1, downward, and never below 0. -/
def Obligations.TimersDecayByAtMostOne : Prop :=
  ∀ s t : State, step s = .next t →
    ((∀ x, decode s.wordAtPc ≠ .ok (.ldDtVx x)) →
      t.dt.count.toNat = s.dt.count.toNat ∨ t.dt.count.toNat + 1 = s.dt.count.toNat) ∧
    ((∀ x, decode s.wordAtPc ≠ .ok (.ldStVx x)) →
      t.st.count.toNat = s.st.count.toNat ∨ t.st.count.toNat + 1 = s.st.count.toNat)

/-- R311, R312.  A timer does not decrement on the step that sets it: an inference the spec marks as
derived from R346 to R348 and a positive TICK_PERIOD. -/
def Obligations.TimerSetHoldsThroughItsStep : Prop :=
  ∀ (x : RegIdx) (s t : State), 0 < s.config.tickPeriod → step s = .next t →
    (decode s.wordAtPc = .ok (.ldDtVx x) → t.dt.count = s.v x ∧ t.dt.tickStart = t.now) ∧
    (decode s.wordAtPc = .ok (.ldStVx x) → t.st.count = s.v x ∧ t.st.tickStart = t.now)

/-! ### Rules of the whole machine -/

/-- R32, R34 to R36, R38 to R40, R79.  Over all instructions, only the ones the spec names write each
piece of state; and no instruction writes the status, the keys, the beep flag or a parameter. -/
def Obligations.OnlyTheNamedInstructionsWrite : Prop :=
  ∀ (i : Instr) (s t : State), exec i s = .next t →
    (∀ r, t.v r ≠ s.v r → MayWriteReg i r) ∧
    (t.i ≠ s.i → (∃ nnn, i = .ldI nnn) ∨ (∃ x, i = .addIVx x) ∨ ∃ x, i = .ldFVx x) ∧
    ((t.sp ≠ s.sp ∨ t.stack ≠ s.stack) → i = .ret ∨ ∃ nnn, i = .call nnn) ∧
    ((t.pixels ≠ s.pixels ∨ t.mustDraw ≠ s.mustDraw) → i = .cls ∨ ∃ x y n, i = .drw x y n) ∧
    (t.mem ≠ s.mem → (∃ x, i = .ldBVx x) ∨ ∃ x, i = .storeRegs x) ∧
    ((t.waiting ≠ s.waiting ∨ t.latch ≠ s.latch) → ∃ x, i = .ldVxK x) ∧
    (t.dt ≠ s.dt → ∃ x, i = .ldDtVx x) ∧
    (t.st ≠ s.st → ∃ x, i = .ldStVx x) ∧
    t.status = s.status ∧ t.keys = s.keys ∧ t.mustBeep = s.mustBeep ∧ t.config = s.config

/-- R383 (D25).  From a state parked at E every step answers a next state parked at E, and leaves the
registers, I, memory, the stack, the pixels, the waiting state and the latch as they are. -/
def Obligations.ParkedStaysParked : Prop :=
  ∀ (s : State) (e : Word), s.Parked e → ∃ t, step s = .next t ∧ t.Parked e ∧
    t.regs = s.regs ∧ t.i = s.i ∧ t.mem = s.mem ∧ t.stack = s.stack ∧ t.sp = s.sp ∧
    t.pixels = s.pixels ∧ t.waiting = s.waiting ∧ t.latch = s.latch ∧ t.config = s.config

/-- R56, its base case: every admitted construction, with any parameters and any ROM, gives a state that
meets the invariant; StepKeepsInvariant then carries it to every state reached from there.  The spec
marks R56 as derived, and memory's canonical form is the model's. -/
def Obligations.ConstructionMeetsInvariant : Prop :=
  ∀ cfg rom s, construct cfg rom = .ok s → s.Inv
end

