-- ==== Sys2Proof/Laws/Memory.lean ====
section
/-! SUPPORT. The laws of memory: a read after a write, that a write leaves every other place alone,
that blocks read and write byte by byte, and that every operation keeps the canonical form. -/

namespace Sys2Proof.Machine

/-! ### Reading -/

@[simp] theorem Memory.read_nil (a : Nat) : Memory.read [] a = Memory.blank a := rfl
theorem Memory.read_cons (b : Nat) (v : Byte) (m : Memory) (a : Nat) :
    Memory.read ((b, v) :: m) a = if b = a then v else Memory.read m a := rfl

theorem Memory.read_erase (m : Memory) (a b : Nat) :
    Memory.read (Memory.erase m a) b = if b = a then Memory.blank a else Memory.read m b := by
  induction m with
  | nil => by_cases h : b = a <;> simp [Memory.erase, Memory.read, h]
  | cons c m ih =>
    obtain ⟨d, v⟩ := c
    unfold Memory.erase at ih ⊢
    by_cases hd : d = a
    · subst hd
      rw [List.filter_cons_of_neg (by simp), ih, Memory.read_cons]
      by_cases hb : b = d
      · simp [hb]
      · simp [hb, Ne.symm hb]
    · rw [List.filter_cons_of_pos (by simp [hd]), Memory.read_cons, Memory.read_cons, ih]
      by_cases hb : b = a
      · subst hb; simp [hd]
      · simp [hb]

theorem Memory.read_put (m : Memory) (a b : Nat) (v : Byte) :
    Memory.read (Memory.put m a v) b = if b = a then v else Memory.read m b := by
  induction m with
  | nil =>
    by_cases h : b = a
    · simp [Memory.put, Memory.read, h]
    · simp [Memory.put, Memory.read, h, Ne.symm h]
  | cons c m ih =>
    obtain ⟨d, u⟩ := c
    unfold Memory.put
    split
    · simp only [Memory.read_cons, eq_comm (a := a)]
    · split
      · subst_vars
        simp only [Memory.read_cons]
        by_cases hb : b = d
        · simp [hb]
        · simp [hb, Ne.symm hb]
      · rename_i _ hne
        rw [Memory.read_cons, Memory.read_cons, ih]
        by_cases hb : b = a
        · subst hb; simp [Ne.symm hne]
        · simp [hb]

/-- A read after a write of one byte, at every address. -/
theorem Memory.read_write (m : Memory) (a b : Nat) (v : Byte) :
    Memory.read (Memory.write m a v) b = if b = a then v else Memory.read m b := by
  unfold Memory.write
  split
  · subst_vars; exact Memory.read_erase m a b
  · exact Memory.read_put m a b v

@[simp] theorem Memory.read_write_same (m : Memory) (a : Nat) (v : Byte) :
    Memory.read (Memory.write m a v) a = v := by simp [Memory.read_write]
theorem Memory.read_write_ne (m : Memory) (a b : Nat) (v : Byte) (h : b ≠ a) :
    Memory.read (Memory.write m a v) b = Memory.read m b := by simp [Memory.read_write, h]

/-- A read after a block write: the block's byte inside the block, the old byte outside it. -/
theorem Memory.read_writeBlock (m : Memory) (a b : Nat) (bs : List Byte) :
    Memory.read (Memory.writeBlock m a bs) b =
      if a ≤ b then bs.getD (b - a) (Memory.read m b) else Memory.read m b := by
  induction bs generalizing m a with
  | nil => simp [Memory.writeBlock]
  | cons v bs ih =>
    rw [Memory.writeBlock, ih, Memory.read_write]
    by_cases h1 : a + 1 ≤ b
    · have h2 : b - a = (b - (a + 1)) + 1 := by omega
      simp [h1, show a ≤ b by omega, show b ≠ a by omega, h2]
    · by_cases h3 : b = a
      · subst h3; simp
      · simp [h1, h3, show ¬ a ≤ b by omega]

@[simp] theorem Memory.length_readBlock (m : Memory) (a n : Nat) :
    (Memory.readBlock m a n).length = n := by simp [Memory.readBlock]
theorem Memory.getElem_readBlock (m : Memory) (a n k : Nat) (h : k < n) :
    (Memory.readBlock m a n)[k]'(by simpa using h) = Memory.read m (a + k) := by
  simp [Memory.readBlock]

/-! ### The canonical form -/

theorem Memory.wf_iff (m : Memory) : Memory.wf m = true ↔
    m.Pairwise (fun c d => c.1 < d.1) ∧ ∀ c ∈ m, c.1 < memSize ∧ c.2 ≠ Memory.blank c.1 := by
  simp [Memory.wf]

@[simp] theorem Memory.wf_nil : Memory.wf [] = true := by decide

theorem Memory.erase_wf (m : Memory) (a : Nat) (h : Memory.wf m = true) :
    Memory.wf (Memory.erase m a) = true := by
  rw [Memory.wf_iff] at h ⊢
  exact ⟨h.1.filter _, fun c hc => h.2 c (List.mem_of_mem_filter hc)⟩

theorem Memory.mem_put (m : Memory) (a : Nat) (v : Byte) (c : Host.Cell) (h : c ∈ Memory.put m a v) :
    c = (a, v) ∨ c ∈ m := by
  induction m with
  | nil => simpa [Memory.put] using h
  | cons d m ih =>
    obtain ⟨b, u⟩ := d
    unfold Memory.put at h
    split at h
    · simpa using h
    · split at h
      · rcases List.mem_cons.1 h with rfl | h
        · exact .inl rfl
        · exact .inr (List.mem_cons_of_mem _ h)
      · rcases List.mem_cons.1 h with rfl | h
        · exact .inr List.mem_cons_self
        · exact (ih h).imp id (List.mem_cons_of_mem _)

theorem Memory.put_sorted (m : Memory) (a : Nat) (v : Byte) (h : m.Pairwise fun c d => c.1 < d.1) :
    (Memory.put m a v).Pairwise fun c d => c.1 < d.1 := by
  induction m with
  | nil => simp [Memory.put]
  | cons d m ih =>
    obtain ⟨b, u⟩ := d
    rw [List.pairwise_cons] at h
    unfold Memory.put
    split
    · rename_i hab
      refine List.pairwise_cons.2 ⟨?_, List.pairwise_cons.2 h⟩
      rintro c hc
      rcases List.mem_cons.1 hc with rfl | hc
      · exact hab
      · exact lt_trans hab (h.1 c hc)
    · split
      · subst_vars; exact List.pairwise_cons.2 ⟨h.1, h.2⟩
      · rename_i h1 h2
        refine List.pairwise_cons.2 ⟨?_, ih h.2⟩
        intro c hc
        rcases Memory.mem_put m a v c hc with rfl | hc
        · simp only; omega
        · exact h.1 c hc

/-- Writing a byte below 4096 keeps the canonical form. -/
theorem Memory.write_wf (m : Memory) (a : Nat) (v : Byte) (ha : a < memSize) (h : Memory.wf m = true) :
    Memory.wf (Memory.write m a v) = true := by
  unfold Memory.write
  split
  · exact Memory.erase_wf m a h
  · rename_i hv
    rw [Memory.wf_iff] at h ⊢
    refine ⟨Memory.put_sorted m a v h.1, fun c hc => ?_⟩
    rcases Memory.mem_put m a v c hc with rfl | hc
    · exact ⟨ha, hv⟩
    · exact h.2 c hc

/-- Writing a block that is in bounds keeps the canonical form. -/
theorem Memory.writeBlock_wf (m : Memory) (a : Nat) (bs : List Byte) (ha : a + bs.length ≤ memSize)
    (h : Memory.wf m = true) : Memory.wf (Memory.writeBlock m a bs) = true := by
  induction bs generalizing m a with
  | nil => exact h
  | cons b bs ih =>
    rw [List.length_cons] at ha
    exact ih _ _ (by omega) (Memory.write_wf m a b (by omega) h)

/-- Placing an instruction word keeps the canonical form. -/
theorem Memory.placeWord_wf (m : Memory) (a : Nat) (w : Word) (h : Memory.wf m = true) :
    Memory.wf (Memory.placeWord m a w) = true := by
  unfold Memory.placeWord
  split
  · rename_i hb
    exact Memory.writeBlock_wf m a _ (by simpa [Memory.inBounds] using hb) h
  · exact h

/-- The memory built from a byte function is canonical. -/
theorem Memory.ofBytes_wf (f : Nat → Byte) : Memory.wf (Memory.ofBytes f) = true := by
  rw [Memory.wf_iff]
  constructor
  · unfold Memory.ofBytes
    rw [List.pairwise_filterMap]
    refine (List.pairwise_lt_range (n := memSize)).imp ?_
    intro a b hab c hc d hd
    simp only [Option.ite_none_left_eq_some, Option.some.injEq] at hc hd
    rw [← hc.2, ← hd.2]
    exact hab
  · intro c hc
    simp only [Memory.ofBytes, List.mem_filterMap, List.mem_range, Option.ite_none_left_eq_some,
      Option.some.injEq] at hc
    obtain ⟨a, ha, hne, rfl⟩ := hc
    exact ⟨ha, hne⟩

/-- The memory built from a byte function over any list of addresses holds that function there. -/
theorem Memory.read_filterMap (f : Nat → Byte) (l : List Nat) (a : Nat) (ha : a ∈ l) :
    Memory.read (l.filterMap fun a => if f a = Memory.blank a then none else some (a, f a)) a = f a := by
  induction l with
  | nil => cases ha
  | cons b l ih =>
    by_cases hb : f b = Memory.blank b
    · rw [List.filterMap_cons_none (by simp [hb])]
      by_cases hab : a ∈ l
      · exact ih hab
      · have : a = b := by simpa [hab] using ha
        subst this
        have key : ∀ l : List Nat, a ∉ l → Memory.read (l.filterMap fun a =>
            if f a = Memory.blank a then none else some (a, f a)) a = Memory.blank a := by
          intro l hl
          induction l with
          | nil => rfl
          | cons d l ihl =>
            rw [List.mem_cons, not_or] at hl
            by_cases hd : f d = Memory.blank d
            · rw [List.filterMap_cons_none (by simp [hd])]; exact ihl hl.2
            · rw [List.filterMap_cons_some (b := (d, f d)) (by simp [hd]), Memory.read_cons,
                if_neg (Ne.symm hl.1)]
              exact ihl hl.2
        rw [key l hab, hb]
    · rw [List.filterMap_cons_some (b := (b, f b)) (by simp [hb]), Memory.read_cons]
      by_cases hba : b = a
      · subst hba; simp
      · rw [if_neg hba]
        exact ih (by simpa [Ne.symm hba] using ha)

/-- The memory built from a byte function holds it at every address below 4096. -/
theorem Memory.read_ofBytes (f : Nat → Byte) (a : Nat) (ha : a < memSize) :
    Memory.read (Memory.ofBytes f) a = f a :=
  Memory.read_filterMap f _ a (List.mem_range.2 ha)

end Sys2Proof.Machine
end

