-- ==== Sys2Proof/Laws/Construct.lean ====
section
/-! SUPPORT. Everything a construction can do, said once: what each field of a constructed core is, which
constructions are admitted, and what memory reads after one. -/

namespace Sys2Proof.Machine

@[simp] theorem constructed_regs (cfg : Config) (rom : List Byte) :
    (constructed cfg rom).regs = cfg.vInit := rfl
@[simp] theorem constructed_pc (cfg : Config) (rom : List Byte) :
    (constructed cfg rom).pc = BitVec.ofNat 16 cfg.origin := rfl
@[simp] theorem constructed_i (cfg : Config) (rom : List Byte) :
    (constructed cfg rom).i = cfg.iInit := rfl
@[simp] theorem constructed_stack (cfg : Config) (rom : List Byte) :
    (constructed cfg rom).stack = Vector.replicate 16 0 := rfl
@[simp] theorem constructed_sp (cfg : Config) (rom : List Byte) :
    (constructed cfg rom).sp = 0 := rfl
@[simp] theorem constructed_dt (cfg : Config) (rom : List Byte) :
    (constructed cfg rom).dt = ⟨cfg.dtInit, cfg.t0⟩ := rfl
@[simp] theorem constructed_st (cfg : Config) (rom : List Byte) :
    (constructed cfg rom).st = ⟨cfg.stInit, cfg.t0⟩ := rfl
@[simp] theorem constructed_mustBeep (cfg : Config) (rom : List Byte) :
    (constructed cfg rom).mustBeep = false := rfl
@[simp] theorem constructed_pixels (cfg : Config) (rom : List Byte) :
    (constructed cfg rom).pixels = Frame.clear := rfl
@[simp] theorem constructed_mustDraw (cfg : Config) (rom : List Byte) :
    (constructed cfg rom).mustDraw = false := rfl
@[simp] theorem constructed_keys (cfg : Config) (rom : List Byte) :
    (constructed cfg rom).keys = Vector.replicate 16 false := rfl
@[simp] theorem constructed_waiting (cfg : Config) (rom : List Byte) :
    (constructed cfg rom).waiting = false := rfl
@[simp] theorem constructed_latch (cfg : Config) (rom : List Byte) :
    (constructed cfg rom).latch = none := rfl
@[simp] theorem constructed_mem (cfg : Config) (rom : List Byte) :
    (constructed cfg rom).mem = Memory.ofBytes (initialByte cfg rom) := by simp only [constructed]
@[simp] theorem constructed_status (cfg : Config) (rom : List Byte) :
    (constructed cfg rom).status = .running := rfl
@[simp] theorem constructed_config (cfg : Config) (rom : List Byte) :
    (constructed cfg rom).config = cfg.run := rfl
@[simp] theorem constructed_now (cfg : Config) (rom : List Byte) :
    (constructed cfg rom).now = cfg.t0 := rfl
@[simp] theorem constructed_rnd (cfg : Config) (rom : List Byte) :
    (constructed cfg rom).rnd = 0 := rfl
@[simp] theorem constructed_inputs (cfg : Config) (rom : List Byte) :
    (constructed cfg rom).inputs = [] := rfl
@[simp] theorem constructed_inputsTaken (cfg : Config) (rom : List Byte) :
    (constructed cfg rom).inputsTaken = 0 := rfl
@[simp] theorem constructed_out (cfg : Config) (rom : List Byte) :
    (constructed cfg rom).out = ⟨false, false⟩ := rfl

/-- Everything `construct` can do when it gives a core (R371, R372): the parameters are in their ranges,
the ROM fits, and the core is `constructed`. -/
theorem construct_eq_ok_iff (cfg : Config) (rom : List Byte) (s : State) :
    construct cfg rom = .ok s ↔
      (80 ≤ cfg.origin ∧ cfg.origin ≤ 4094 ∧ 0 < cfg.run.tickPeriod ∧ 0 ≤ cfg.t0 ∧
        cfg.origin + rom.length ≤ 4096) ∧ s = constructed cfg rom := by
  unfold construct admitted
  constructor
  · intro h
    split at h
    · rename_i ha
      simp only [Bool.and_eq_true, decide_eq_true_eq] at ha
      split at h
      · rename_i hb
        simp only [memSize] at hb
        cases h
        exact ⟨⟨ha.1.1.1, ha.1.1.2, ha.1.2, ha.2, by omega⟩, rfl⟩
      · cases h
    · cases h
  · rintro ⟨⟨h1, h2, h3, h4, h5⟩, rfl⟩
    rw [if_pos (by simp [h1, h2, h3, h4]), if_pos (by simp only [memSize]; omega)]

/-- A byte of memory after construction (R54). -/
theorem read_constructed (cfg : Config) (rom : List Byte) (a : Nat) (ha : a < 4096) :
    Memory.read (constructed cfg rom).mem a = initialByte cfg rom a := by
  rw [constructed_mem]
  exact Memory.read_ofBytes (initialByte cfg rom) a (by unfold memSize; exact ha)

end Sys2Proof.Machine
end

