-- ==== Sys2Proof/Laws/Display.lean ====
section
/-! SUPPORT. Everything DrawSprite can do, said once: it strikes a list of cells, no cell twice, and a
struck cell flips. -/

namespace Sys2Proof.Machine

theorem Frame.pixel_flip (f : Frame) (r r' : Fin 32) (c c' : Fin 64) :
    Frame.pixel (Frame.flip f r c) r' c' =
      (Frame.pixel f r' c' ^^ decide ((r', c') = (r, c))) := by
  unfold Frame.pixel Frame.flip
  by_cases hr : r' = r
  · subst hr
    by_cases hc : c' = c
    · subst hc; simp
    · have : c.val ≠ c'.val := fun h => hc (Fin.ext h.symm)
      simp [hc, this]
  · have : r.val ≠ r'.val := fun h => hr (Fin.ext h.symm)
    simp [hr, this]

theorem Frame.ext_pixel {f g : Frame} (h : ∀ r c, Frame.pixel f r c = Frame.pixel g r c) : f = g := by
  apply Vector.ext
  intro i hi
  apply Vector.ext
  intro j hj
  exact h ⟨i, hi⟩ ⟨j, hj⟩

/-- One cell struck by a set sprite bit: whether it was lit is recorded, and it flips. -/
def Frame.strike (acc : Frame × Bool) (p : Fin 32 × Fin 64) : Frame × Bool :=
  (Frame.flip acc.1 p.1 p.2, acc.2 || Frame.pixel acc.1 p.1 p.2)

/-- The cells that the set bits of one sprite row land on. -/
def Frame.rowCells (cx cy : Byte) (row : Nat) (b : Byte) : List (Fin 32 × Fin 64) :=
  ((List.range 8).filter (spriteBit b)).map fun bit => (wrapRow (cy.toNat + row), wrapCol (cx.toNat + bit))

/-- The cells that the set bits of a sprite land on, from row number `row` on. -/
def Frame.spriteCells (cx cy : Byte) : Nat → List Byte → List (Fin 32 × Fin 64)
  | _, [] => []
  | row, b :: bs => Frame.rowCells cx cy row b ++ Frame.spriteCells cx cy (row + 1) bs

theorem Frame.drawRow_eq (cx cy : Byte) (row : Nat) (b : Byte) (acc : Frame × Bool) :
    Frame.drawRow cx cy row b acc = (Frame.rowCells cx cy row b).foldl Frame.strike acc := by
  unfold Frame.drawRow Frame.rowCells
  induction List.range 8 generalizing acc with
  | nil => rfl
  | cons bit l ih =>
    rw [List.foldl_cons, ih, List.filter_cons]
    unfold Frame.drawBit
    by_cases h : spriteBit b bit = true <;> simp [h, Frame.strike]

theorem Frame.drawRows_eq (cx cy : Byte) (row : Nat) (bs : List Byte) (acc : Frame × Bool) :
    Frame.drawRows cx cy row bs acc = (Frame.spriteCells cx cy row bs).foldl Frame.strike acc := by
  induction bs generalizing row acc with
  | nil => rfl
  | cons b bs ih => rw [Frame.drawRows, ih, Frame.drawRow_eq, Frame.spriteCells, List.foldl_append]

theorem wrapRow_eq_iff (n : Nat) (r : Fin 32) : wrapRow n = r ↔ n % 32 = r.val := by
  simp [wrapRow, Fin.ext_iff]
theorem wrapCol_eq_iff (n : Nat) (c : Fin 64) : wrapCol n = c ↔ n % 64 = c.val := by
  simp [wrapCol, Fin.ext_iff]

theorem Frame.mem_rowCells (cx cy : Byte) (row : Nat) (b : Byte) (r : Fin 32) (c : Fin 64) :
    (r, c) ∈ Frame.rowCells cx cy row b ↔
      ∃ j < 8, spriteBit b j = true ∧ (cy.toNat + row) % 32 = r.val ∧ (cx.toNat + j) % 64 = c.val := by
  simp [Frame.rowCells, wrapRow_eq_iff, wrapCol_eq_iff, and_assoc]

theorem Frame.mem_spriteCells (cx cy : Byte) (row : Nat) (bs : List Byte) (r : Fin 32) (c : Fin 64) :
    (r, c) ∈ Frame.spriteCells cx cy row bs ↔
      ∃ k < bs.length, ∃ j < 8, spriteBit (bs.getD k 0) j = true ∧
        (cy.toNat + (row + k)) % 32 = r.val ∧ (cx.toNat + j) % 64 = c.val := by
  induction bs generalizing row with
  | nil => simp [Frame.spriteCells]
  | cons b bs ih =>
    rw [Frame.spriteCells, List.mem_append, Frame.mem_rowCells, ih]
    constructor
    · rintro (h | ⟨k, hk, h⟩)
      · exact ⟨0, by simp, by simpa using h⟩
      · exact ⟨k + 1, by simpa using hk, by simpa [Nat.add_assoc, Nat.add_comm 1] using h⟩
    · rintro ⟨k, hk, h⟩
      cases k with
      | zero => exact .inl (by simpa using h)
      | succ k => exact .inr ⟨k, by simpa using hk, by simpa [Nat.add_assoc, Nat.add_comm 1] using h⟩

theorem Frame.rowCells_nodup (cx cy : Byte) (row : Nat) (b : Byte) : (Frame.rowCells cx cy row b).Nodup := by
  unfold Frame.rowCells
  refine List.Nodup.map_on ?_ (List.nodup_range.filter _)
  intro i hi j hj h
  have hi' := List.mem_range.1 (List.mem_filter.1 hi).1
  have hj' := List.mem_range.1 (List.mem_filter.1 hj).1
  have := congrArg (fun p => p.2.val) h
  simp [wrapCol] at this
  omega

/-- No cell is struck twice in one draw (R268 (a)). -/
theorem Frame.spriteCells_nodup (cx cy : Byte) (row : Nat) (bs : List Byte) (h : bs.length ≤ 32) :
    (Frame.spriteCells cx cy row bs).Nodup := by
  induction bs generalizing row with
  | nil => exact List.nodup_nil
  | cons b bs ih =>
    rw [List.length_cons] at h
    rw [Frame.spriteCells, List.nodup_append']
    refine ⟨Frame.rowCells_nodup cx cy row b, ih (row + 1) (by omega), ?_⟩
    rintro ⟨r, c⟩ h1 h2
    obtain ⟨j, -, -, e1, -⟩ := (Frame.mem_rowCells cx cy row b r c).1 h1
    obtain ⟨k, hk, i, -, -, e2, -⟩ := (Frame.mem_spriteCells cx cy (row + 1) bs r c).1 h2
    omega

theorem Frame.foldl_strike (ps : List (Fin 32 × Fin 64)) (hps : ps.Nodup) (acc : Frame × Bool) :
    (∀ r c, Frame.pixel (ps.foldl Frame.strike acc).1 r c = (Frame.pixel acc.1 r c ^^ decide ((r, c) ∈ ps))) ∧
      ((ps.foldl Frame.strike acc).2 = true ↔ acc.2 = true ∨ ∃ r c, (r, c) ∈ ps ∧ Frame.pixel acc.1 r c = true) := by
  induction ps generalizing acc with
  | nil => simp
  | cons p ps ih =>
    obtain ⟨hp, hps⟩ := List.nodup_cons.1 hps
    obtain ⟨h1, h2⟩ := ih hps (Frame.strike acc p)
    constructor
    · intro r c
      rw [List.foldl_cons, h1, Frame.strike, Frame.pixel_flip]
      by_cases h : (r, c) = p
      · subst h; simp [hp]
      · simp [h]
    · rw [List.foldl_cons, h2]
      simp only [Frame.strike, Frame.pixel_flip, Bool.or_eq_true, or_assoc]
      refine or_congr Iff.rfl ?_
      constructor
      · rintro (h | ⟨r, c, h, e⟩)
        · exact ⟨p.1, p.2, by simp, h⟩
        · have : (r, c) ≠ p := fun hc => hp (hc ▸ h)
          exact ⟨r, c, List.mem_cons_of_mem _ h, by simpa [this] using e⟩
      · rintro ⟨r, c, h, e⟩
        rcases List.mem_cons.1 h with h | h
        · subst h; exact .inl e
        · have : (r, c) ≠ p := fun hc => hp (hc ▸ h)
          exact .inr ⟨r, c, h, by simpa [this] using e⟩

/-- Everything DrawSprite can do: each pixel flips exactly where a set sprite bit lands, and the
collision is a set bit on a pixel that was lit (R264, R265). -/
theorem Frame.drawSprite_spec (f : Frame) (bs : List Byte) (cx cy : Byte) (h : bs.length ≤ 32) :
    (∀ r c, Frame.pixel (Frame.drawSprite f bs cx cy).1 r c =
      (Frame.pixel f r c ^^ decide ((r, c) ∈ Frame.spriteCells cx cy 0 bs))) ∧
    ((Frame.drawSprite f bs cx cy).2 = true ↔
      ∃ r c, (r, c) ∈ Frame.spriteCells cx cy 0 bs ∧ Frame.pixel f r c = true) := by
  unfold Frame.drawSprite
  rw [Frame.drawRows_eq]
  simpa using Frame.foldl_strike _ (Frame.spriteCells_nodup cx cy 0 bs h) (f, false)

/-- The bit at column offset `j`, by arithmetic (R261). -/
theorem spriteBit_iff (b : Byte) (j : Nat) :
    spriteBit b j = true ↔ b.toNat / 2 ^ (7 - j) % 2 = 1 := by
  simp [spriteBit, BitVec.getLsbD, Nat.testBit_eq_decide_div_mod_eq]

end Sys2Proof.Machine
end

