-- ==== Sys2Proof/Laws/Encoding.lean ====
section
/-! SUPPORT. What the bit-field and byte-order helpers of the decoder and the encoder give, by
arithmetic: the fields of a packed word, and a word under the masks of the opcode map. -/

namespace Sys2Proof

theorem fieldS_toNat (w : Word) : (fieldS w).toNat = w.toNat / 4096 := by
  simp [fieldS, Nat.shiftRight_eq_div_pow]; omega
theorem fieldX_toNat (w : Word) : (fieldX w).toNat = w.toNat / 256 % 16 := by
  simp [fieldX, Nat.shiftRight_eq_div_pow]
theorem fieldY_toNat (w : Word) : (fieldY w).toNat = w.toNat / 16 % 16 := by
  simp [fieldY, Nat.shiftRight_eq_div_pow]
theorem fieldN_toNat (w : Word) : (fieldN w).toNat = w.toNat % 16 := by
  simp [fieldN]
theorem fieldKK_toNat (w : Word) : (fieldKK w).toNat = w.toNat % 256 := by
  simp [fieldKK]
theorem fieldNNN_toNat (w : Word) : (fieldNNN w).toNat = w.toNat % 4096 := by
  simp [fieldNNN]

theorem packA_toNat (s : BitVec 4) (nnn : Imm12) : (packA s nnn).toNat = s.toNat * 4096 + nnn.toNat := by
  simp [packA]; omega
theorem packXK_toNat (s : BitVec 4) (x : RegIdx) (kk : Byte) :
    (packXK s x kk).toNat = s.toNat * 4096 + x.toNat * 256 + kk.toNat := by
  simp [packXK]; omega
theorem packXYN_toNat (s : BitVec 4) (x y : RegIdx) (n : BitVec 4) :
    (packXYN s x y n).toNat = s.toNat * 4096 + x.toNat * 256 + y.toNat * 16 + n.toNat := by
  simp [packXYN]; omega

@[simp] theorem fieldS_packA (s : BitVec 4) (nnn : Imm12) : fieldS (packA s nnn) = s := by
  apply BitVec.eq_of_toNat_eq; rw [fieldS_toNat, packA_toNat]; omega
@[simp] theorem fieldNNN_packA (s : BitVec 4) (nnn : Imm12) : fieldNNN (packA s nnn) = nnn := by
  apply BitVec.eq_of_toNat_eq; rw [fieldNNN_toNat, packA_toNat]; omega
@[simp] theorem fieldS_packXK (s : BitVec 4) (x : RegIdx) (kk : Byte) : fieldS (packXK s x kk) = s := by
  apply BitVec.eq_of_toNat_eq; rw [fieldS_toNat, packXK_toNat]; omega
@[simp] theorem fieldX_packXK (s : BitVec 4) (x : RegIdx) (kk : Byte) : fieldX (packXK s x kk) = x := by
  apply BitVec.eq_of_toNat_eq; rw [fieldX_toNat, packXK_toNat]; omega
@[simp] theorem fieldKK_packXK (s : BitVec 4) (x : RegIdx) (kk : Byte) : fieldKK (packXK s x kk) = kk := by
  apply BitVec.eq_of_toNat_eq; rw [fieldKK_toNat, packXK_toNat]; omega
@[simp] theorem fieldS_packXYN (s : BitVec 4) (x y : RegIdx) (n : BitVec 4) : fieldS (packXYN s x y n) = s := by
  apply BitVec.eq_of_toNat_eq; rw [fieldS_toNat, packXYN_toNat]; omega
@[simp] theorem fieldX_packXYN (s : BitVec 4) (x y : RegIdx) (n : BitVec 4) : fieldX (packXYN s x y n) = x := by
  apply BitVec.eq_of_toNat_eq; rw [fieldX_toNat, packXYN_toNat]; omega
@[simp] theorem fieldY_packXYN (s : BitVec 4) (x y : RegIdx) (n : BitVec 4) : fieldY (packXYN s x y n) = y := by
  apply BitVec.eq_of_toNat_eq; rw [fieldY_toNat, packXYN_toNat]; omega
@[simp] theorem fieldN_packXYN (s : BitVec 4) (x y : RegIdx) (n : BitVec 4) : fieldN (packXYN s x y n) = n := by
  apply BitVec.eq_of_toNat_eq; rw [fieldN_toNat, packXYN_toNat]; omega

/-! ### Byte order -/

theorem wordOfBytes_toNat (hi lo : Byte) : (wordOfBytes hi lo).toNat = hi.toNat * 256 + lo.toNat := by
  simp [wordOfBytes]; omega
theorem hiByte_toNat (w : Word) : (hiByte w).toNat = w.toNat / 256 := by
  simp [hiByte, Nat.shiftRight_eq_div_pow]; omega
theorem loByte_toNat (w : Word) : (loByte w).toNat = w.toNat % 256 := by
  simp [loByte]
@[simp] theorem wordOfBytes_hi_lo (w : Word) : wordOfBytes (hiByte w) (loByte w) = w := by
  apply BitVec.eq_of_toNat_eq; rw [wordOfBytes_toNat, hiByte_toNat, loByte_toNat]; omega

/-! ### A word under the masks of R105 -/

theorem and_F000_toNat (w : Word) : (w &&& 0xF000#16).toNat = w.toNat / 4096 * 4096 := by
  have h : w &&& 0xF000#16 = (w >>> 12) <<< 12 := by
    ext i hi
    interval_cases i <;> simp
  rw [h]
  simp [Nat.shiftRight_eq_div_pow, Nat.shiftLeft_eq]; omega

/-- A mask of the class nibble and low bits splits into its two parts. -/
theorem and_or_F000 (w lo : Word) (hlo : lo &&& 0xF000#16 = 0) :
    w &&& (0xF000#16 ||| lo) = (w &&& 0xF000#16) + (w &&& lo) := by
  rw [BitVec.add_eq_or_of_and_eq_zero, BitVec.and_or_distrib_left]
  rw [show w &&& 0xF000#16 &&& (w &&& lo) = w &&& (lo &&& 0xF000#16) by ac_nf, hlo]
  simp

theorem and_F_toNat (w : Word) : (w &&& 0xF#16).toNat = w.toNat % 16 := by
  rw [BitVec.toNat_and]; exact Nat.and_two_pow_sub_one_eq_mod _ 4
theorem and_FF_toNat (w : Word) : (w &&& 0xFF#16).toNat = w.toNat % 256 := by
  rw [BitVec.toNat_and]; exact Nat.and_two_pow_sub_one_eq_mod _ 8
theorem and_F00F_toNat (w : Word) :
    (w &&& 0xF00F#16).toNat = w.toNat / 4096 * 4096 + w.toNat % 16 := by
  rw [show 0xF00F#16 = 0xF000#16 ||| 0xF#16 by decide, and_or_F000 _ _ (by decide), BitVec.toNat_add,
    and_F000_toNat, and_F_toNat]
  omega
theorem and_F0FF_toNat (w : Word) :
    (w &&& 0xF0FF#16).toNat = w.toNat / 4096 * 4096 + w.toNat % 256 := by
  rw [show 0xF0FF#16 = 0xF000#16 ||| 0xFF#16 by decide, and_or_F000 _ _ (by decide), BitVec.toNat_add,
    and_F000_toNat, and_FF_toNat]
  omega

/-! ### What a packed instruction has under its row's mask -/

theorem packA_and (s : BitVec 4) (nnn : Imm12) :
    packA s nnn &&& 0xF000#16 = BitVec.ofNat 16 (s.toNat * 4096) := by
  apply BitVec.eq_of_toNat_eq; rw [and_F000_toNat, packA_toNat]; simp; omega
theorem packXK_and (s : BitVec 4) (x : RegIdx) (kk : Byte) :
    packXK s x kk &&& 0xF000#16 = BitVec.ofNat 16 (s.toNat * 4096) := by
  apply BitVec.eq_of_toNat_eq; rw [and_F000_toNat, packXK_toNat]; simp; omega
theorem packXF_and (s : BitVec 4) (x : RegIdx) (kk : Byte) :
    packXK s x kk &&& 0xF0FF#16 = BitVec.ofNat 16 (s.toNat * 4096 + kk.toNat) := by
  apply BitVec.eq_of_toNat_eq; rw [and_F0FF_toNat, packXK_toNat]; simp; omega
theorem packXYN_and (s : BitVec 4) (x y : RegIdx) (n : BitVec 4) :
    packXYN s x y n &&& 0xF000#16 = BitVec.ofNat 16 (s.toNat * 4096) := by
  apply BitVec.eq_of_toNat_eq; rw [and_F000_toNat, packXYN_toNat]; simp; omega
theorem packXYF_and (s : BitVec 4) (x y : RegIdx) (n : BitVec 4) :
    packXYN s x y n &&& 0xF00F#16 = BitVec.ofNat 16 (s.toNat * 4096 + n.toNat) := by
  apply BitVec.eq_of_toNat_eq; rw [and_F00F_toNat, packXYN_toNat]; simp; omega

end Sys2Proof
end

