-- ==== Sys2Proof/Laws/State.lean ====
section
/-! SUPPORT. What each named update of State does to each field, one lemma each, all true by `rfl`. -/

namespace Sys2Proof.Machine

/-! ### `setV` -/

@[simp] theorem State.setV_regs (s : State) (x : RegIdx) (b : Byte) : (s.setV x b).regs = s.regs.set x.toNat b x.isLt := rfl
@[simp] theorem State.setV_pc (s : State) (x : RegIdx) (b : Byte) : (s.setV x b).pc = s.pc := rfl
@[simp] theorem State.setV_i (s : State) (x : RegIdx) (b : Byte) : (s.setV x b).i = s.i := rfl
@[simp] theorem State.setV_stack (s : State) (x : RegIdx) (b : Byte) : (s.setV x b).stack = s.stack := rfl
@[simp] theorem State.setV_sp (s : State) (x : RegIdx) (b : Byte) : (s.setV x b).sp = s.sp := rfl
@[simp] theorem State.setV_dt (s : State) (x : RegIdx) (b : Byte) : (s.setV x b).dt = s.dt := rfl
@[simp] theorem State.setV_st (s : State) (x : RegIdx) (b : Byte) : (s.setV x b).st = s.st := rfl
@[simp] theorem State.setV_mustBeep (s : State) (x : RegIdx) (b : Byte) : (s.setV x b).mustBeep = s.mustBeep := rfl
@[simp] theorem State.setV_pixels (s : State) (x : RegIdx) (b : Byte) : (s.setV x b).pixels = s.pixels := rfl
@[simp] theorem State.setV_mustDraw (s : State) (x : RegIdx) (b : Byte) : (s.setV x b).mustDraw = s.mustDraw := rfl
@[simp] theorem State.setV_keys (s : State) (x : RegIdx) (b : Byte) : (s.setV x b).keys = s.keys := rfl
@[simp] theorem State.setV_waiting (s : State) (x : RegIdx) (b : Byte) : (s.setV x b).waiting = s.waiting := rfl
@[simp] theorem State.setV_latch (s : State) (x : RegIdx) (b : Byte) : (s.setV x b).latch = s.latch := rfl
@[simp] theorem State.setV_mem (s : State) (x : RegIdx) (b : Byte) : (s.setV x b).mem = s.mem := rfl
@[simp] theorem State.setV_status (s : State) (x : RegIdx) (b : Byte) : (s.setV x b).status = s.status := rfl
@[simp] theorem State.setV_config (s : State) (x : RegIdx) (b : Byte) : (s.setV x b).config = s.config := rfl
@[simp] theorem State.setV_now (s : State) (x : RegIdx) (b : Byte) : (s.setV x b).now = s.now := rfl
@[simp] theorem State.setV_rnd (s : State) (x : RegIdx) (b : Byte) : (s.setV x b).rnd = s.rnd := rfl
@[simp] theorem State.setV_inputs (s : State) (x : RegIdx) (b : Byte) : (s.setV x b).inputs = s.inputs := rfl
@[simp] theorem State.setV_inputsTaken (s : State) (x : RegIdx) (b : Byte) : (s.setV x b).inputsTaken = s.inputsTaken := rfl
@[simp] theorem State.setV_out (s : State) (x : RegIdx) (b : Byte) : (s.setV x b).out = s.out := rfl
@[simp] theorem State.setV_keyDown (s : State) (x : RegIdx) (b : Byte) (k : Key) : (s.setV x b).keyDown k = s.keyDown k := rfl
@[simp] theorem State.setV_nextPc (s : State) (x : RegIdx) (b : Byte) (c : Control) : (s.setV x b).nextPc c = s.nextPc c := rfl

/-! ### `setI` -/

@[simp] theorem State.setI_regs (s : State) (a : Word) : (s.setI a).regs = s.regs := rfl
@[simp] theorem State.setI_pc (s : State) (a : Word) : (s.setI a).pc = s.pc := rfl
@[simp] theorem State.setI_i (s : State) (a : Word) : (s.setI a).i = a := rfl
@[simp] theorem State.setI_stack (s : State) (a : Word) : (s.setI a).stack = s.stack := rfl
@[simp] theorem State.setI_sp (s : State) (a : Word) : (s.setI a).sp = s.sp := rfl
@[simp] theorem State.setI_dt (s : State) (a : Word) : (s.setI a).dt = s.dt := rfl
@[simp] theorem State.setI_st (s : State) (a : Word) : (s.setI a).st = s.st := rfl
@[simp] theorem State.setI_mustBeep (s : State) (a : Word) : (s.setI a).mustBeep = s.mustBeep := rfl
@[simp] theorem State.setI_pixels (s : State) (a : Word) : (s.setI a).pixels = s.pixels := rfl
@[simp] theorem State.setI_mustDraw (s : State) (a : Word) : (s.setI a).mustDraw = s.mustDraw := rfl
@[simp] theorem State.setI_keys (s : State) (a : Word) : (s.setI a).keys = s.keys := rfl
@[simp] theorem State.setI_waiting (s : State) (a : Word) : (s.setI a).waiting = s.waiting := rfl
@[simp] theorem State.setI_latch (s : State) (a : Word) : (s.setI a).latch = s.latch := rfl
@[simp] theorem State.setI_mem (s : State) (a : Word) : (s.setI a).mem = s.mem := rfl
@[simp] theorem State.setI_status (s : State) (a : Word) : (s.setI a).status = s.status := rfl
@[simp] theorem State.setI_config (s : State) (a : Word) : (s.setI a).config = s.config := rfl
@[simp] theorem State.setI_now (s : State) (a : Word) : (s.setI a).now = s.now := rfl
@[simp] theorem State.setI_rnd (s : State) (a : Word) : (s.setI a).rnd = s.rnd := rfl
@[simp] theorem State.setI_inputs (s : State) (a : Word) : (s.setI a).inputs = s.inputs := rfl
@[simp] theorem State.setI_inputsTaken (s : State) (a : Word) : (s.setI a).inputsTaken = s.inputsTaken := rfl
@[simp] theorem State.setI_out (s : State) (a : Word) : (s.setI a).out = s.out := rfl
@[simp] theorem State.setI_v (s : State) (a : Word) (r : RegIdx) : (s.setI a).v r = s.v r := rfl
@[simp] theorem State.setI_keyDown (s : State) (a : Word) (k : Key) : (s.setI a).keyDown k = s.keyDown k := rfl
@[simp] theorem State.setI_nextPc (s : State) (a : Word) (c : Control) : (s.setI a).nextPc c = s.nextPc c := rfl

/-! ### `advance` -/

@[simp] theorem State.advance_regs (s : State) (c : Control) : (s.advance c).regs = s.regs := rfl
@[simp] theorem State.advance_pc (s : State) (c : Control) : (s.advance c).pc = s.nextPc c := rfl
@[simp] theorem State.advance_i (s : State) (c : Control) : (s.advance c).i = s.i := rfl
@[simp] theorem State.advance_stack (s : State) (c : Control) : (s.advance c).stack = s.stack := rfl
@[simp] theorem State.advance_sp (s : State) (c : Control) : (s.advance c).sp = s.sp := rfl
@[simp] theorem State.advance_dt (s : State) (c : Control) : (s.advance c).dt = s.dt := rfl
@[simp] theorem State.advance_st (s : State) (c : Control) : (s.advance c).st = s.st := rfl
@[simp] theorem State.advance_mustBeep (s : State) (c : Control) : (s.advance c).mustBeep = s.mustBeep := rfl
@[simp] theorem State.advance_pixels (s : State) (c : Control) : (s.advance c).pixels = s.pixels := rfl
@[simp] theorem State.advance_mustDraw (s : State) (c : Control) : (s.advance c).mustDraw = s.mustDraw := rfl
@[simp] theorem State.advance_keys (s : State) (c : Control) : (s.advance c).keys = s.keys := rfl
@[simp] theorem State.advance_waiting (s : State) (c : Control) : (s.advance c).waiting = s.waiting := rfl
@[simp] theorem State.advance_latch (s : State) (c : Control) : (s.advance c).latch = s.latch := rfl
@[simp] theorem State.advance_mem (s : State) (c : Control) : (s.advance c).mem = s.mem := rfl
@[simp] theorem State.advance_status (s : State) (c : Control) : (s.advance c).status = s.status := rfl
@[simp] theorem State.advance_config (s : State) (c : Control) : (s.advance c).config = s.config := rfl
@[simp] theorem State.advance_now (s : State) (c : Control) : (s.advance c).now = s.now := rfl
@[simp] theorem State.advance_rnd (s : State) (c : Control) : (s.advance c).rnd = s.rnd := rfl
@[simp] theorem State.advance_inputs (s : State) (c : Control) : (s.advance c).inputs = s.inputs := rfl
@[simp] theorem State.advance_inputsTaken (s : State) (c : Control) : (s.advance c).inputsTaken = s.inputsTaken := rfl
@[simp] theorem State.advance_out (s : State) (c : Control) : (s.advance c).out = s.out := rfl
@[simp] theorem State.advance_v (s : State) (c : Control) (r : RegIdx) : (s.advance c).v r = s.v r := rfl
@[simp] theorem State.advance_keyDown (s : State) (c : Control) (k : Key) : (s.advance c).keyDown k = s.keyDown k := rfl

/-! ### `record` -/

@[simp] theorem State.record_regs (s : State) (f : Fault) : (s.record f).regs = s.regs := rfl
@[simp] theorem State.record_pc (s : State) (f : Fault) : (s.record f).pc = s.pc := rfl
@[simp] theorem State.record_i (s : State) (f : Fault) : (s.record f).i = s.i := rfl
@[simp] theorem State.record_stack (s : State) (f : Fault) : (s.record f).stack = s.stack := rfl
@[simp] theorem State.record_sp (s : State) (f : Fault) : (s.record f).sp = s.sp := rfl
@[simp] theorem State.record_dt (s : State) (f : Fault) : (s.record f).dt = s.dt := rfl
@[simp] theorem State.record_st (s : State) (f : Fault) : (s.record f).st = s.st := rfl
@[simp] theorem State.record_mustBeep (s : State) (f : Fault) : (s.record f).mustBeep = s.mustBeep := rfl
@[simp] theorem State.record_pixels (s : State) (f : Fault) : (s.record f).pixels = s.pixels := rfl
@[simp] theorem State.record_mustDraw (s : State) (f : Fault) : (s.record f).mustDraw = s.mustDraw := rfl
@[simp] theorem State.record_keys (s : State) (f : Fault) : (s.record f).keys = s.keys := rfl
@[simp] theorem State.record_waiting (s : State) (f : Fault) : (s.record f).waiting = s.waiting := rfl
@[simp] theorem State.record_latch (s : State) (f : Fault) : (s.record f).latch = s.latch := rfl
@[simp] theorem State.record_mem (s : State) (f : Fault) : (s.record f).mem = s.mem := rfl
@[simp] theorem State.record_status (s : State) (f : Fault) : (s.record f).status = .faulted f := rfl
@[simp] theorem State.record_config (s : State) (f : Fault) : (s.record f).config = s.config := rfl
@[simp] theorem State.record_now (s : State) (f : Fault) : (s.record f).now = s.now := rfl
@[simp] theorem State.record_rnd (s : State) (f : Fault) : (s.record f).rnd = s.rnd := rfl
@[simp] theorem State.record_inputs (s : State) (f : Fault) : (s.record f).inputs = s.inputs := rfl
@[simp] theorem State.record_inputsTaken (s : State) (f : Fault) : (s.record f).inputsTaken = s.inputsTaken := rfl
@[simp] theorem State.record_out (s : State) (f : Fault) : (s.record f).out = s.out := rfl
@[simp] theorem State.record_v (s : State) (f : Fault) (r : RegIdx) : (s.record f).v r = s.v r := rfl
@[simp] theorem State.record_keyDown (s : State) (f : Fault) (k : Key) : (s.record f).keyDown k = s.keyDown k := rfl
@[simp] theorem State.record_nextPc (s : State) (f : Fault) (c : Control) : (s.record f).nextPc c = s.nextPc c := rfl

/-! ### `clearDisplay` -/

@[simp] theorem State.clearDisplay_regs (s : State) : s.clearDisplay.regs = s.regs := rfl
@[simp] theorem State.clearDisplay_pc (s : State) : s.clearDisplay.pc = s.pc := rfl
@[simp] theorem State.clearDisplay_i (s : State) : s.clearDisplay.i = s.i := rfl
@[simp] theorem State.clearDisplay_stack (s : State) : s.clearDisplay.stack = s.stack := rfl
@[simp] theorem State.clearDisplay_sp (s : State) : s.clearDisplay.sp = s.sp := rfl
@[simp] theorem State.clearDisplay_dt (s : State) : s.clearDisplay.dt = s.dt := rfl
@[simp] theorem State.clearDisplay_st (s : State) : s.clearDisplay.st = s.st := rfl
@[simp] theorem State.clearDisplay_mustBeep (s : State) : s.clearDisplay.mustBeep = s.mustBeep := rfl
@[simp] theorem State.clearDisplay_pixels (s : State) : s.clearDisplay.pixels = Frame.clear := rfl
@[simp] theorem State.clearDisplay_mustDraw (s : State) : s.clearDisplay.mustDraw = true := rfl
@[simp] theorem State.clearDisplay_keys (s : State) : s.clearDisplay.keys = s.keys := rfl
@[simp] theorem State.clearDisplay_waiting (s : State) : s.clearDisplay.waiting = s.waiting := rfl
@[simp] theorem State.clearDisplay_latch (s : State) : s.clearDisplay.latch = s.latch := rfl
@[simp] theorem State.clearDisplay_mem (s : State) : s.clearDisplay.mem = s.mem := rfl
@[simp] theorem State.clearDisplay_status (s : State) : s.clearDisplay.status = s.status := rfl
@[simp] theorem State.clearDisplay_config (s : State) : s.clearDisplay.config = s.config := rfl
@[simp] theorem State.clearDisplay_now (s : State) : s.clearDisplay.now = s.now := rfl
@[simp] theorem State.clearDisplay_rnd (s : State) : s.clearDisplay.rnd = s.rnd := rfl
@[simp] theorem State.clearDisplay_inputs (s : State) : s.clearDisplay.inputs = s.inputs := rfl
@[simp] theorem State.clearDisplay_inputsTaken (s : State) : s.clearDisplay.inputsTaken = s.inputsTaken := rfl
@[simp] theorem State.clearDisplay_out (s : State) : s.clearDisplay.out = s.out := rfl
@[simp] theorem State.clearDisplay_v (s : State) (r : RegIdx) : s.clearDisplay.v r = s.v r := rfl
@[simp] theorem State.clearDisplay_keyDown (s : State) (k : Key) : s.clearDisplay.keyDown k = s.keyDown k := rfl
@[simp] theorem State.clearDisplay_nextPc (s : State) (c : Control) : s.clearDisplay.nextPc c = s.nextPc c := rfl

/-! ### `drawSprite` -/

@[simp] theorem State.drawSprite_regs (s : State) (bs : List Byte) (cx cy : Byte) : (s.drawSprite bs cx cy).1.regs = s.regs := rfl
@[simp] theorem State.drawSprite_pc (s : State) (bs : List Byte) (cx cy : Byte) : (s.drawSprite bs cx cy).1.pc = s.pc := rfl
@[simp] theorem State.drawSprite_i (s : State) (bs : List Byte) (cx cy : Byte) : (s.drawSprite bs cx cy).1.i = s.i := rfl
@[simp] theorem State.drawSprite_stack (s : State) (bs : List Byte) (cx cy : Byte) : (s.drawSprite bs cx cy).1.stack = s.stack := rfl
@[simp] theorem State.drawSprite_sp (s : State) (bs : List Byte) (cx cy : Byte) : (s.drawSprite bs cx cy).1.sp = s.sp := rfl
@[simp] theorem State.drawSprite_dt (s : State) (bs : List Byte) (cx cy : Byte) : (s.drawSprite bs cx cy).1.dt = s.dt := rfl
@[simp] theorem State.drawSprite_st (s : State) (bs : List Byte) (cx cy : Byte) : (s.drawSprite bs cx cy).1.st = s.st := rfl
@[simp] theorem State.drawSprite_mustBeep (s : State) (bs : List Byte) (cx cy : Byte) : (s.drawSprite bs cx cy).1.mustBeep = s.mustBeep := rfl
@[simp] theorem State.drawSprite_pixels (s : State) (bs : List Byte) (cx cy : Byte) : (s.drawSprite bs cx cy).1.pixels = (Frame.drawSprite s.pixels bs cx cy).1 := rfl
@[simp] theorem State.drawSprite_mustDraw (s : State) (bs : List Byte) (cx cy : Byte) : (s.drawSprite bs cx cy).1.mustDraw = true := rfl
@[simp] theorem State.drawSprite_keys (s : State) (bs : List Byte) (cx cy : Byte) : (s.drawSprite bs cx cy).1.keys = s.keys := rfl
@[simp] theorem State.drawSprite_waiting (s : State) (bs : List Byte) (cx cy : Byte) : (s.drawSprite bs cx cy).1.waiting = s.waiting := rfl
@[simp] theorem State.drawSprite_latch (s : State) (bs : List Byte) (cx cy : Byte) : (s.drawSprite bs cx cy).1.latch = s.latch := rfl
@[simp] theorem State.drawSprite_mem (s : State) (bs : List Byte) (cx cy : Byte) : (s.drawSprite bs cx cy).1.mem = s.mem := rfl
@[simp] theorem State.drawSprite_status (s : State) (bs : List Byte) (cx cy : Byte) : (s.drawSprite bs cx cy).1.status = s.status := rfl
@[simp] theorem State.drawSprite_config (s : State) (bs : List Byte) (cx cy : Byte) : (s.drawSprite bs cx cy).1.config = s.config := rfl
@[simp] theorem State.drawSprite_now (s : State) (bs : List Byte) (cx cy : Byte) : (s.drawSprite bs cx cy).1.now = s.now := rfl
@[simp] theorem State.drawSprite_rnd (s : State) (bs : List Byte) (cx cy : Byte) : (s.drawSprite bs cx cy).1.rnd = s.rnd := rfl
@[simp] theorem State.drawSprite_inputs (s : State) (bs : List Byte) (cx cy : Byte) : (s.drawSprite bs cx cy).1.inputs = s.inputs := rfl
@[simp] theorem State.drawSprite_inputsTaken (s : State) (bs : List Byte) (cx cy : Byte) : (s.drawSprite bs cx cy).1.inputsTaken = s.inputsTaken := rfl
@[simp] theorem State.drawSprite_out (s : State) (bs : List Byte) (cx cy : Byte) : (s.drawSprite bs cx cy).1.out = s.out := rfl
@[simp] theorem State.drawSprite_v (s : State) (bs : List Byte) (cx cy : Byte) (r : RegIdx) : (s.drawSprite bs cx cy).1.v r = s.v r := rfl
@[simp] theorem State.drawSprite_keyDown (s : State) (bs : List Byte) (cx cy : Byte) (k : Key) : (s.drawSprite bs cx cy).1.keyDown k = s.keyDown k := rfl
@[simp] theorem State.drawSprite_nextPc (s : State) (bs : List Byte) (cx cy : Byte) (c : Control) : (s.drawSprite bs cx cy).1.nextPc c = s.nextPc c := rfl

/-! ### `keyEvents` -/

@[simp] theorem State.keyEvents_regs (s : State) (es : List KeyEvent) : (s.keyEvents es).regs = s.regs := rfl
@[simp] theorem State.keyEvents_pc (s : State) (es : List KeyEvent) : (s.keyEvents es).pc = s.pc := rfl
@[simp] theorem State.keyEvents_i (s : State) (es : List KeyEvent) : (s.keyEvents es).i = s.i := rfl
@[simp] theorem State.keyEvents_stack (s : State) (es : List KeyEvent) : (s.keyEvents es).stack = s.stack := rfl
@[simp] theorem State.keyEvents_sp (s : State) (es : List KeyEvent) : (s.keyEvents es).sp = s.sp := rfl
@[simp] theorem State.keyEvents_dt (s : State) (es : List KeyEvent) : (s.keyEvents es).dt = s.dt := rfl
@[simp] theorem State.keyEvents_st (s : State) (es : List KeyEvent) : (s.keyEvents es).st = s.st := rfl
@[simp] theorem State.keyEvents_mustBeep (s : State) (es : List KeyEvent) : (s.keyEvents es).mustBeep = s.mustBeep := rfl
@[simp] theorem State.keyEvents_pixels (s : State) (es : List KeyEvent) : (s.keyEvents es).pixels = s.pixels := rfl
@[simp] theorem State.keyEvents_mustDraw (s : State) (es : List KeyEvent) : (s.keyEvents es).mustDraw = s.mustDraw := rfl
@[simp] theorem State.keyEvents_keys (s : State) (es : List KeyEvent) : (s.keyEvents es).keys = es.foldl keysAfter s.keys := rfl
@[simp] theorem State.keyEvents_waiting (s : State) (es : List KeyEvent) : (s.keyEvents es).waiting = s.waiting := rfl
@[simp] theorem State.keyEvents_latch (s : State) (es : List KeyEvent) : (s.keyEvents es).latch = es.foldl (latchAfter s.waiting) s.latch := rfl
@[simp] theorem State.keyEvents_mem (s : State) (es : List KeyEvent) : (s.keyEvents es).mem = s.mem := rfl
@[simp] theorem State.keyEvents_status (s : State) (es : List KeyEvent) : (s.keyEvents es).status = s.status := rfl
@[simp] theorem State.keyEvents_config (s : State) (es : List KeyEvent) : (s.keyEvents es).config = s.config := rfl
@[simp] theorem State.keyEvents_now (s : State) (es : List KeyEvent) : (s.keyEvents es).now = s.now := rfl
@[simp] theorem State.keyEvents_rnd (s : State) (es : List KeyEvent) : (s.keyEvents es).rnd = s.rnd := rfl
@[simp] theorem State.keyEvents_inputs (s : State) (es : List KeyEvent) : (s.keyEvents es).inputs = s.inputs := rfl
@[simp] theorem State.keyEvents_inputsTaken (s : State) (es : List KeyEvent) : (s.keyEvents es).inputsTaken = s.inputsTaken := rfl
@[simp] theorem State.keyEvents_out (s : State) (es : List KeyEvent) : (s.keyEvents es).out = s.out := rfl
@[simp] theorem State.keyEvents_v (s : State) (es : List KeyEvent) (r : RegIdx) : (s.keyEvents es).v r = s.v r := rfl
@[simp] theorem State.keyEvents_nextPc (s : State) (es : List KeyEvent) (c : Control) : (s.keyEvents es).nextPc c = s.nextPc c := rfl

/-! ### `beginStep` -/

@[simp] theorem State.beginStep_regs (s : State) : s.beginStep.regs = s.regs := rfl
@[simp] theorem State.beginStep_pc (s : State) : s.beginStep.pc = s.pc := rfl
@[simp] theorem State.beginStep_i (s : State) : s.beginStep.i = s.i := rfl
@[simp] theorem State.beginStep_stack (s : State) : s.beginStep.stack = s.stack := rfl
@[simp] theorem State.beginStep_sp (s : State) : s.beginStep.sp = s.sp := rfl
@[simp] theorem State.beginStep_dt (s : State) : s.beginStep.dt = s.dt := rfl
@[simp] theorem State.beginStep_st (s : State) : s.beginStep.st = s.st := rfl
@[simp] theorem State.beginStep_mustBeep (s : State) : s.beginStep.mustBeep = s.mustBeep := rfl
@[simp] theorem State.beginStep_pixels (s : State) : s.beginStep.pixels = s.pixels := rfl
@[simp] theorem State.beginStep_mustDraw (s : State) : s.beginStep.mustDraw = s.mustDraw := rfl
@[simp] theorem State.beginStep_keys (s : State) : s.beginStep.keys = s.nextInput.events.foldl keysAfter s.keys := rfl
@[simp] theorem State.beginStep_waiting (s : State) : s.beginStep.waiting = s.waiting := rfl
@[simp] theorem State.beginStep_latch (s : State) : s.beginStep.latch = s.nextInput.events.foldl (latchAfter s.waiting) s.latch := rfl
@[simp] theorem State.beginStep_mem (s : State) : s.beginStep.mem = s.mem := rfl
@[simp] theorem State.beginStep_status (s : State) : s.beginStep.status = s.status := rfl
@[simp] theorem State.beginStep_config (s : State) : s.beginStep.config = s.config := rfl
@[simp] theorem State.beginStep_now (s : State) : s.beginStep.now = s.now + s.nextInput.elapsed.seconds := rfl
@[simp] theorem State.beginStep_rnd (s : State) : s.beginStep.rnd = s.nextInput.rnd := rfl
@[simp] theorem State.beginStep_inputs (s : State) : s.beginStep.inputs = s.inputs.tail := rfl
@[simp] theorem State.beginStep_inputsTaken (s : State) : s.beginStep.inputsTaken = s.inputsTaken + 1 := rfl
@[simp] theorem State.beginStep_out (s : State) : s.beginStep.out = s.out := rfl
@[simp] theorem State.beginStep_v (s : State) (r : RegIdx) : s.beginStep.v r = s.v r := rfl
@[simp] theorem State.beginStep_nextPc (s : State) (c : Control) : s.beginStep.nextPc c = s.nextPc c := rfl

/-! ### `tick` -/

@[simp] theorem State.tick_regs (s : State) : s.tick.regs = s.regs := rfl
@[simp] theorem State.tick_pc (s : State) : s.tick.pc = s.pc := rfl
@[simp] theorem State.tick_i (s : State) : s.tick.i = s.i := rfl
@[simp] theorem State.tick_stack (s : State) : s.tick.stack = s.stack := rfl
@[simp] theorem State.tick_sp (s : State) : s.tick.sp = s.sp := rfl
@[simp] theorem State.tick_dt (s : State) : s.tick.dt = s.dt.countdown s.config.tickPeriod s.now := rfl
@[simp] theorem State.tick_st (s : State) : s.tick.st = s.st.countdown s.config.tickPeriod s.now := rfl
@[simp] theorem State.tick_mustBeep (s : State) : s.tick.mustBeep = (s.mustBeep || s.st.due s.config.tickPeriod s.now) := rfl
@[simp] theorem State.tick_pixels (s : State) : s.tick.pixels = s.pixels := rfl
@[simp] theorem State.tick_mustDraw (s : State) : s.tick.mustDraw = s.mustDraw := rfl
@[simp] theorem State.tick_keys (s : State) : s.tick.keys = s.keys := rfl
@[simp] theorem State.tick_waiting (s : State) : s.tick.waiting = s.waiting := rfl
@[simp] theorem State.tick_latch (s : State) : s.tick.latch = s.latch := rfl
@[simp] theorem State.tick_mem (s : State) : s.tick.mem = s.mem := rfl
@[simp] theorem State.tick_status (s : State) : s.tick.status = s.status := rfl
@[simp] theorem State.tick_config (s : State) : s.tick.config = s.config := rfl
@[simp] theorem State.tick_now (s : State) : s.tick.now = s.now := rfl
@[simp] theorem State.tick_rnd (s : State) : s.tick.rnd = s.rnd := rfl
@[simp] theorem State.tick_inputs (s : State) : s.tick.inputs = s.inputs := rfl
@[simp] theorem State.tick_inputsTaken (s : State) : s.tick.inputsTaken = s.inputsTaken := rfl
@[simp] theorem State.tick_out (s : State) : s.tick.out = s.out := rfl
@[simp] theorem State.tick_v (s : State) (r : RegIdx) : s.tick.v r = s.v r := rfl
@[simp] theorem State.tick_keyDown (s : State) (k : Key) : s.tick.keyDown k = s.keyDown k := rfl
@[simp] theorem State.tick_nextPc (s : State) (c : Control) : s.tick.nextPc c = s.nextPc c := rfl

/-! ### `harvest` -/

@[simp] theorem State.harvest_regs (s : State) : s.harvest.regs = s.regs := rfl
@[simp] theorem State.harvest_pc (s : State) : s.harvest.pc = s.pc := rfl
@[simp] theorem State.harvest_i (s : State) : s.harvest.i = s.i := rfl
@[simp] theorem State.harvest_stack (s : State) : s.harvest.stack = s.stack := rfl
@[simp] theorem State.harvest_sp (s : State) : s.harvest.sp = s.sp := rfl
@[simp] theorem State.harvest_dt (s : State) : s.harvest.dt = s.dt := rfl
@[simp] theorem State.harvest_st (s : State) : s.harvest.st = s.st := rfl
@[simp] theorem State.harvest_mustBeep (s : State) : s.harvest.mustBeep = false := rfl
@[simp] theorem State.harvest_pixels (s : State) : s.harvest.pixels = s.pixels := rfl
@[simp] theorem State.harvest_mustDraw (s : State) : s.harvest.mustDraw = false := rfl
@[simp] theorem State.harvest_keys (s : State) : s.harvest.keys = s.keys := rfl
@[simp] theorem State.harvest_waiting (s : State) : s.harvest.waiting = s.waiting := rfl
@[simp] theorem State.harvest_latch (s : State) : s.harvest.latch = s.latch := rfl
@[simp] theorem State.harvest_mem (s : State) : s.harvest.mem = s.mem := rfl
@[simp] theorem State.harvest_status (s : State) : s.harvest.status = s.status := rfl
@[simp] theorem State.harvest_config (s : State) : s.harvest.config = s.config := rfl
@[simp] theorem State.harvest_now (s : State) : s.harvest.now = s.now := rfl
@[simp] theorem State.harvest_rnd (s : State) : s.harvest.rnd = s.rnd := rfl
@[simp] theorem State.harvest_inputs (s : State) : s.harvest.inputs = s.inputs := rfl
@[simp] theorem State.harvest_inputsTaken (s : State) : s.harvest.inputsTaken = s.inputsTaken := rfl
@[simp] theorem State.harvest_out (s : State) : s.harvest.out = ⟨s.mustDraw, s.mustBeep⟩ := rfl
@[simp] theorem State.harvest_v (s : State) (r : RegIdx) : s.harvest.v r = s.v r := rfl
@[simp] theorem State.harvest_keyDown (s : State) (k : Key) : s.harvest.keyDown k = s.keyDown k := rfl
@[simp] theorem State.harvest_nextPc (s : State) (c : Control) : s.harvest.nextPc c = s.nextPc c := rfl

end Sys2Proof.Machine
end

