-- ==== Sys2Proof/Laws/Ops.lean ====
section
/-! SUPPORT. One lemma for each shared operation that says everything it can do. -/

namespace Sys2Proof.Machine

/-! ### General registers -/

theorem State.v_setV (s : State) (x r : RegIdx) (b : Byte) :
    (s.setV x b).v r = if r = x then b else s.v r := by
  unfold State.setV State.v
  rw [Vector.getElem_set]
  by_cases h : r = x
  · subst h; simp
  · simp [h, show x.toNat ≠ r.toNat from fun e => h (BitVec.eq_of_toNat_eq e.symm)]

@[simp] theorem State.v_setV_same (s : State) (x : RegIdx) (b : Byte) : (s.setV x b).v x = b := by
  simp [State.v_setV]
theorem State.v_setV_ne (s : State) (x r : RegIdx) (b : Byte) (h : r ≠ x) :
    (s.setV x b).v r = s.v r := by simp [State.v_setV, h]

/-- The register loop touches the registers and nothing else. -/
theorem State.setVs_eq (s : State) (r : Nat) (bs : List Byte) :
    s.setVs r bs = { s with regs := (s.setVs r bs).regs } := by
  induction bs generalizing s r with
  | nil => rfl
  | cons b bs ih => rw [State.setVs]; exact ih _ _

@[simp] theorem State.setVs_nextPc (s : State) (r : Nat) (bs : List Byte) (c : Control) :
    (s.setVs r bs).nextPc c = s.nextPc c := by
  rw [State.setVs_eq]; rfl

theorem State.setVs_keeps (s : State) (r : Nat) (bs : List Byte) (q : RegIdx)
    (h : q.toNat < r ∨ r + bs.length ≤ q.toNat) (hr : r + bs.length ≤ 16) :
    (s.setVs r bs).v q = s.v q := by
  induction bs generalizing s r with
  | nil => rfl
  | cons b bs ih =>
    rw [List.length_cons] at h hr
    rw [State.setVs, ih _ _ (by omega) (by omega)]
    refine State.v_setV_ne _ _ _ _ fun e => ?_
    have := congrArg BitVec.toNat e
    rw [BitVec.toNat_ofNat, Nat.mod_eq_of_lt (by omega)] at this
    omega

/-- The register loop from register `r` on: byte k goes to register r + k. -/
theorem State.v_setVs (s : State) (r : Nat) (bs : List Byte) (q : RegIdx) (hr : r + bs.length ≤ 16) :
    (s.setVs r bs).v q = if r ≤ q.toNat then bs.getD (q.toNat - r) (s.v q) else s.v q := by
  induction bs generalizing s r with
  | nil => simp [State.setVs]
  | cons b bs ih =>
    rw [List.length_cons] at hr
    by_cases h1 : q.toNat < r
    · rw [State.setVs_keeps _ _ _ _ (.inl h1) (by simpa using hr), if_neg (by omega)]
    by_cases h2 : q.toNat = r
    · have hq : BitVec.ofNat 4 r = q := BitVec.eq_of_toNat_eq (by simp [← h2])
      rw [State.setVs, State.setVs_keeps _ _ _ _ (.inl (by omega)) (by omega), hq,
        State.v_setV_same, if_pos (by omega), h2]
      simp
    · have hne : q ≠ BitVec.ofNat 4 r := fun e => h2 (by
        have := congrArg BitVec.toNat e
        rwa [BitVec.toNat_ofNat, Nat.mod_eq_of_lt (by omega)] at this)
      rw [State.setVs, ih _ _ (by omega), if_pos (by omega), if_pos (by omega),
        State.v_setV_ne _ _ _ _ hne, show q.toNat - r = (q.toNat - (r + 1)) + 1 by omega]
      simp

@[simp] theorem State.length_vUpTo (s : State) (x : RegIdx) : (s.vUpTo x).length = x.toNat + 1 := by
  simp [State.vUpTo]

/-- Byte r of the stored block is V[r]. -/
theorem State.getD_vUpTo (s : State) (x r : RegIdx) (d : Byte) (h : r.toNat ≤ x.toNat) :
    (s.vUpTo x).getD r.toNat d = s.v r := by
  have hr : r.toNat < (s.vUpTo x).length := by rw [State.length_vUpTo]; omega
  rw [List.getD_eq_getElem _ _ hr]
  simp [State.vUpTo]

/-! ### Completion -/

/-- `finish` answers a next state exactly where the handler did not fault, with the pc updated. -/
theorem finish_eq_next_iff (r : Except Fault State) (c : Control) (t : State) :
    finish r c = .next t ↔ ∃ u, r = .ok u ∧ t = u.advance c := by
  cases r with
  | error f => simp [finish, raise]
  | ok u => simp [finish, eq_comm]

@[simp] theorem finish_ok (u : State) (c : Control) : finish (.ok u) c = .next (u.advance c) := rfl
@[simp] theorem finish_error (f : Fault) (c : Control) : finish (.error f) c = .fault f := rfl

/-! ### Memory blocks -/

/-- Everything MemRead can do (R73, R74). -/
theorem State.memRead_cases (s : State) (a : Word) (n : Nat) :
    (a.toNat + n ≤ 4096 ∧ s.memRead a n = .ok (Memory.readBlock s.mem a.toNat n)) ∨
    (4096 < a.toNat + n ∧ s.memRead a n = .error (.memOutOfBounds s.pc a n)) := by
  unfold State.memRead Memory.inBounds memSize
  by_cases h : a.toNat + n ≤ 4096
  · exact .inl ⟨h, by simp [h]⟩
  · exact .inr ⟨by omega, by simp [h]⟩

/-- Everything MemWrite can do, for a block that is not empty (R73, R74, R75). -/
theorem State.memWrite_cases (s : State) (a : Word) (bs : List Byte) (hbs : bs ≠ []) :
    (a.toNat + bs.length ≤ 4096 ∧ ¬ (s.config.fontWrite = .fault ∧ a.toNat < 80) ∧
      s.memWrite a bs = .ok { s with mem := Memory.writeBlock s.mem a.toNat bs }) ∨
    (a.toNat + bs.length ≤ 4096 ∧ (s.config.fontWrite = .fault ∧ a.toNat < 80) ∧
      s.memWrite a bs = .error (.fontWriteFault s.pc a)) ∨
    (4096 < a.toNat + bs.length ∧ s.memWrite a bs = .error (.memOutOfBounds s.pc a bs.length)) := by
  have hpos : 0 < bs.length := List.length_pos_of_ne_nil hbs
  unfold State.memWrite Memory.inBounds memSize meetsFont fontBytes
  by_cases h : a.toNat + bs.length ≤ 4096
  · by_cases hf : s.config.fontWrite = .fault ∧ a.toNat < 80
    · exact .inr (.inl ⟨h, hf, by simp [h, hf, hpos]⟩)
    · exact .inl ⟨h, hf, by simp [h, hf, hpos]⟩
  · exact .inr (.inr ⟨by omega, by simp [h]⟩)

/-! ### The return stack -/

/-- Everything Push can do (R170). -/
theorem State.push_cases (s : State) (a : Word) :
    (∃ h : s.sp.val < 16, s.push a =
      .ok { s with stack := s.stack.set s.sp.val a h, sp := ⟨s.sp.val + 1, by omega⟩ }) ∨
    (s.sp.val = 16 ∧ s.push a = .error (.stackOverflow s.pc)) := by
  unfold State.push
  by_cases h : s.sp.val < 16
  · exact .inl ⟨h, by simp [h]⟩
  · exact .inr ⟨by have := s.sp.isLt; omega, by simp [h]⟩

/-- Everything Pop can do (R171). -/
theorem State.pop_cases (s : State) :
    (s.sp.val = 0 ∧ s.pop = .error (.stackUnderflow s.pc)) ∨
    (∃ h : s.sp.val - 1 < 16, s.sp.val ≠ 0 ∧ s.pop =
      .ok (s.stack[s.sp.val - 1], { s with sp := ⟨s.sp.val - 1, by omega⟩ })) := by
  have hlt := s.sp.isLt
  unfold State.pop
  by_cases h : s.sp.val = 0
  · exact .inl ⟨h, by simp [h]⟩
  · exact .inr ⟨by omega, h, by simp [h]⟩

/-! ### The keyboard -/

/-- Everything GetKey can do (R291). -/
theorem State.getKey_cases (s : State) :
    (s.waiting = false ∧ s.getKey = (none, { s with waiting := true })) ∨
    (s.waiting = true ∧ s.latch = none ∧ s.getKey = (none, s)) ∨
    (∃ k, s.waiting = true ∧ s.latch = some k ∧
      s.getKey = (some k, { s with latch := none, waiting := false })) := by
  unfold State.getKey
  cases hw : s.waiting with
  | false => simp
  | true =>
    cases hl : s.latch with
    | none => simp
    | some k => exact .inr (.inr ⟨k, by simp⟩)

/-- Everything the key wait does before the pc update (R296). -/
theorem State.takeKey_cases (s : State) (x : RegIdx) :
    (s.waiting = false ∧ s.takeKey x = { s with waiting := true }) ∨
    (s.waiting = true ∧ s.latch = none ∧ s.takeKey x = s) ∨
    (∃ k, s.waiting = true ∧ s.latch = some k ∧
      s.takeKey x = State.setV { s with latch := none, waiting := false } x (byteOfKey k)) := by
  unfold State.takeKey
  rcases s.getKey_cases with ⟨h, e⟩ | ⟨h, h', e⟩ | ⟨k, h, h', e⟩
  · exact .inl ⟨h, by simp [e]⟩
  · exact .inr (.inl ⟨h, h', by simp [e]⟩)
  · exact .inr (.inr ⟨k, h, h', by simp [e]⟩)

@[simp] theorem State.keyEvents_nil (s : State) : s.keyEvents [] = s := rfl
theorem State.keyEvents_cons (s : State) (e : KeyEvent) (es : List KeyEvent) :
    s.keyEvents (e :: es) = (s.keyEvents [e]).keyEvents es := rfl

/-- Key events leave the latch alone while the keyboard is Idle (R292). -/
theorem latch_foldl_idle (es : List KeyEvent) (l : Option Key) : es.foldl (latchAfter false) l = l := by
  induction es generalizing l with
  | nil => rfl
  | cons e es ih => cases e <;> simp [latchAfter, ih]

/-- A latched key stays latched: the first key wins (R292). -/
theorem latch_foldl_some (w : Bool) (es : List KeyEvent) (k : Key) :
    es.foldl (latchAfter w) (some k) = some k := by
  induction es with
  | nil => rfl
  | cons e es ih => cases e <;> simp [latchAfter, ih]

/-! ### Timers -/

theorem Timer.due_iff (p now : Time) (t : Timer) :
    t.due p now = true ↔ t.count ≠ 0 ∧ p ≤ now - t.tickStart := by simp [Timer.due]

/-- Everything Countdown can do (R348). -/
theorem Timer.countdown_cases (p now : Time) (t : Timer) :
    (t.count ≠ 0 ∧ p ≤ now - t.tickStart ∧ t.countdown p now = ⟨t.count - 1, now⟩) ∨
    (¬ (t.count ≠ 0 ∧ p ≤ now - t.tickStart) ∧ t.countdown p now = t) := by
  unfold Timer.countdown
  by_cases h : t.count ≠ 0 ∧ p ≤ now - t.tickStart
  · exact .inl ⟨h.1, h.2, if_pos ((t.due_iff p now).2 h)⟩
  · exact .inr ⟨h, if_neg fun e => h ((t.due_iff p now).1 e)⟩

/-- A countdown keeps its tick-start instant at or before the clock (R56 (e)). -/
theorem Timer.countdown_started (p now : Time) (t : Timer) (h : t.tickStart ≤ now) :
    (t.countdown p now).tickStart ≤ now := by
  rcases t.countdown_cases p now with ⟨-, -, e⟩ | ⟨-, e⟩ <;> rw [e]
  exact h

theorem Span.seconds_nonneg (d : Span) : 0 ≤ d.seconds := by
  unfold Span.seconds; positivity

end Sys2Proof.Machine
end

