-- ==== Sys2Proof/Laws/Operands.lean ====
section
/-! SUPPORT. What the operand forms and the flag computations give. -/

namespace Sys2Proof.Machine

@[simp] theorem addrOf_toNat (nnn : Imm12) : (addrOf nnn).toNat = nnn.toNat := by
  simp [addrOf]; omega
@[simp] theorem zext16_toNat (b : Byte) : (zext16 b).toNat = b.toNat := by
  simp [zext16]; omega
@[simp] theorem byteOfKey_toNat (k : Key) : (byteOfKey k).toNat = k.toNat := by
  simp [byteOfKey]; omega

/-- A register value is a key exactly up to 15 (R294). -/
theorem keyOf_cases (b : Byte) :
    (∃ k, keyOf b = some k ∧ k.toNat = b.toNat ∧ b.toNat ≤ 15) ∨ (keyOf b = none ∧ 15 < b.toNat) := by
  unfold keyOf
  by_cases h : b.toNat ≤ 0xF
  · exact .inl ⟨b.setWidth 4, by simp [h], by simp; omega, h⟩
  · exact .inr ⟨by simp [h], by omega⟩

/-- A register value has a glyph exactly up to 15 (R232). -/
theorem glyphAddress_cases (b : Byte) :
    (∃ a, glyphAddress b = some a ∧ a.toNat = 5 * b.toNat ∧ b.toNat ≤ 15) ∨
      (glyphAddress b = none ∧ 15 < b.toNat) := by
  unfold glyphAddress glyphBytes
  by_cases h : b.toNat ≤ 0xF
  · exact .inl ⟨BitVec.ofNat 16 (5 * b.toNat), by simp [h], by simp; omega, h⟩
  · exact .inr ⟨by simp [h], by omega⟩

@[simp] theorem length_bcdDigits (b : Byte) : (bcdDigits b).length = 3 := rfl

@[simp] theorem flagByte_true : flagByte true = 1 := rfl
@[simp] theorem flagByte_false : flagByte false = 0 := rfl

theorem shrOut_toNat (a : Byte) : (shrOut a).toNat = a.toNat % 2 := by
  unfold shrOut; rw [BitVec.toNat_and]; exact Nat.and_two_pow_sub_one_eq_mod _ 1
theorem shlOut_toNat (a : Byte) : (shlOut a).toNat = a.toNat / 128 := by
  simp [shlOut, Nat.shiftRight_eq_div_pow]

/-- The two writes of a result and a flag touch the registers and nothing else. -/
theorem State.writeResultAndFlag_eq (s : State) (x : RegIdx) (r f : Byte) (o : VfWriteOrder) :
    s.writeResultAndFlag x r f o = { s with regs := (s.writeResultAndFlag x r f o).regs } := by
  cases o <;> rfl

@[simp] theorem State.writeResultAndFlag_nextPc (s : State) (x : RegIdx) (r f : Byte) (o : VfWriteOrder)
    (c : Control) : (s.writeResultAndFlag x r f o).nextPc c = s.nextPc c := by
  cases o <;> rfl

theorem State.v_writeResultAndFlag_flagLast (s : State) (x q : RegIdx) (r f : Byte) :
    (s.writeResultAndFlag x r f .flagLast).v q = if q = VF then f else if q = x then r else s.v q := by
  simp only [State.writeResultAndFlag, State.v_setV]

/-- The two writes of a shift touch the registers and nothing else. -/
theorem State.shiftWrite_eq (s : State) (x : RegIdx) (g : Byte → Byte) (f : Byte) (o : VfWriteOrder) :
    s.shiftWrite x g f o = { s with regs := (s.shiftWrite x g f o).regs } := by
  cases o <;> rfl

@[simp] theorem State.shiftWrite_nextPc (s : State) (x : RegIdx) (g : Byte → Byte) (f : Byte)
    (o : VfWriteOrder) (c : Control) : (s.shiftWrite x g f o).nextPc c = s.nextPc c := by
  cases o <;> rfl

/-- For x ≠ 15 every order of a shift's writes gives the same registers (R201). -/
theorem State.v_shiftWrite (s : State) (x q : RegIdx) (g : Byte → Byte) (f : Byte) (o : VfWriteOrder)
    (hx : x ≠ VF) :
    (s.shiftWrite x g f o).v q = if q = x then g (s.v x) else if q = VF then f else s.v q := by
  cases o <;> simp only [State.shiftWrite, State.v_setV, hx, if_false]
  by_cases h : q = x
  · subst h; simp [hx]
  · simp [h]

/-- For x = 15 the order decides what VF ends holding (R201). -/
theorem State.v_shiftWrite_VF (s : State) (q : RegIdx) (g : Byte → Byte) (f : Byte) (o : VfWriteOrder) :
    (s.shiftWrite VF g f o).v q = if q = VF then
      (match o with | .flagLast => f | .resultLast => g (s.v VF) | .sequential => g f) else s.v q := by
  cases o <;> simp only [State.shiftWrite, State.v_setV] <;> by_cases h : q = VF <;> simp [h]

end Sys2Proof.Machine
end

