-- ==== Sys2Proof/Laws/PerInstr.lean ====
section
/-! SUPPORT. Statements made per instruction.  Family `RowBits`: the word of an instruction carries
exactly the fixed bits of its row of the opcode map (spec/30_encoding.md R105). -/

namespace Sys2Proof.Laws.RowBits

/-- The encoding of `i`, under its row's mask, is its row's match (R105). -/
def Statement (i : Instr) : Prop := encode i &&& rowMask i = rowMatch i

theorem cls : Statement .cls := rfl
theorem ret : Statement .ret := rfl
theorem sys (nnn : Imm12) : Statement (.sys nnn) := packA_and _ nnn
theorem jp (nnn : Imm12) : Statement (.jp nnn) := packA_and _ nnn
theorem call (nnn : Imm12) : Statement (.call nnn) := packA_and _ nnn
theorem ldI (nnn : Imm12) : Statement (.ldI nnn) := packA_and _ nnn
theorem jpV0 (nnn : Imm12) : Statement (.jpV0 nnn) := packA_and _ nnn
theorem seVxKk (x : RegIdx) (kk : Byte) : Statement (.seVxKk x kk) := packXK_and _ x kk
theorem sneVxKk (x : RegIdx) (kk : Byte) : Statement (.sneVxKk x kk) := packXK_and _ x kk
theorem ldVxKk (x : RegIdx) (kk : Byte) : Statement (.ldVxKk x kk) := packXK_and _ x kk
theorem addVxKk (x : RegIdx) (kk : Byte) : Statement (.addVxKk x kk) := packXK_and _ x kk
theorem rnd (x : RegIdx) (kk : Byte) : Statement (.rnd x kk) := packXK_and _ x kk
theorem seVxVy (x y : RegIdx) : Statement (.seVxVy x y) := packXYF_and _ x y _
theorem sneVxVy (x y : RegIdx) : Statement (.sneVxVy x y) := packXYF_and _ x y _
theorem ldVxVy (x y : RegIdx) : Statement (.ldVxVy x y) := packXYF_and _ x y _
theorem orVxVy (x y : RegIdx) : Statement (.orVxVy x y) := packXYF_and _ x y _
theorem andVxVy (x y : RegIdx) : Statement (.andVxVy x y) := packXYF_and _ x y _
theorem xorVxVy (x y : RegIdx) : Statement (.xorVxVy x y) := packXYF_and _ x y _
theorem addVxVy (x y : RegIdx) : Statement (.addVxVy x y) := packXYF_and _ x y _
theorem sub (x y : RegIdx) : Statement (.sub x y) := packXYF_and _ x y _
theorem shr (x y : RegIdx) : Statement (.shr x y) := packXYF_and _ x y _
theorem subn (x y : RegIdx) : Statement (.subn x y) := packXYF_and _ x y _
theorem shl (x y : RegIdx) : Statement (.shl x y) := packXYF_and _ x y _
theorem drw (x y : RegIdx) (n : BitVec 4) : Statement (.drw x y n) := packXYN_and _ x y n
theorem skp (x : RegIdx) : Statement (.skp x) := packXF_and _ x _
theorem sknp (x : RegIdx) : Statement (.sknp x) := packXF_and _ x _
theorem ldVxDt (x : RegIdx) : Statement (.ldVxDt x) := packXF_and _ x _
theorem ldVxK (x : RegIdx) : Statement (.ldVxK x) := packXF_and _ x _
theorem ldDtVx (x : RegIdx) : Statement (.ldDtVx x) := packXF_and _ x _
theorem ldStVx (x : RegIdx) : Statement (.ldStVx x) := packXF_and _ x _
theorem addIVx (x : RegIdx) : Statement (.addIVx x) := packXF_and _ x _
theorem ldFVx (x : RegIdx) : Statement (.ldFVx x) := packXF_and _ x _
theorem ldBVx (x : RegIdx) : Statement (.ldBVx x) := packXF_and _ x _
theorem storeRegs (x : RegIdx) : Statement (.storeRegs x) := packXF_and _ x _
theorem loadRegs (x : RegIdx) : Statement (.loadRegs x) := packXF_and _ x _

end Sys2Proof.Laws.RowBits
end

