-- ==== Sys2Proof/Laws/Step.lean ====
section
/-! SUPPORT. What a step and an instruction can do, said once: the fetch, the inversion of a step that
answers a next state, that no instruction is refused, and what no instruction touches. -/

namespace Sys2Proof.Machine

/-! ### The phases around the handler -/

/-- Everything Fetch can do (R76). -/
theorem State.fetch_cases (s : State) :
    (s.pc.toNat + 1 < s.config.fetchLimit.bound ∧ s.fetch = .ok s.wordAtPc) ∨
    (s.config.fetchLimit.bound ≤ s.pc.toNat + 1 ∧ s.fetch = .error (.fetchOutOfBounds s.pc)) := by
  unfold State.fetch State.wordAtPc
  by_cases h : s.pc.toNat + 1 < s.config.fetchLimit.bound
  · exact .inl ⟨h, by simp [h]⟩
  · exact .inr ⟨by omega, by simp [h]⟩

/-- The host's input leaves the pc, memory and the configuration, so what is fetched. -/
@[simp] theorem State.beginStep_wordAtPc (s : State) : s.beginStep.wordAtPc = s.wordAtPc := rfl

/-- The clock never goes back (R8). -/
theorem State.beginStep_clock (s : State) : s.now ≤ s.beginStep.now := by
  rw [State.beginStep_now]
  have := Span.seconds_nonneg s.nextInput.elapsed
  linarith

/-! ### Instructions -/

/-- No instruction is refused. -/
theorem exec_not_refused (i : Instr) (s : State) (r : Refusal) : exec i s ≠ .refused r := by
  have hf : ∀ (e : Except Fault State) (c : Control), finish e c ≠ .refused r := by
    intro e c; cases e <;> simp [finish, raise]
  cases i <;> simp only [exec, execCls, execSys, execJp, execSeVxKk, execSneVxKk, execSeVxVy,
    execSneVxVy, execLdVxKk, execAddVxKk, execLdVxVy, execOrVxVy, execAndVxVy, execXorVxVy,
    execAddVxVy, execSub, execShr, execSubn, execShl, execLdI, execJpV0, execRnd, execLdVxDt,
    execLdVxK, execLdDtVx, execLdStVx, execAddIVx, execCall, execLdBVx, execStoreRegs, execRet,
    execDrw, execSkp, execSknp, execLdFVx, execLoadRegs, raise, ne_eq, reduceCtorEq,
    not_false_eq_true] <;> first | exact hf _ _ | (split <;> simp)

/-- What no instruction touches: the run status, the parameters, the keys, the beep flag, and the
host's side of the interface (R145). -/
def SameHostSide (s t : State) : Prop :=
  t.status = s.status ∧ t.config = s.config ∧ t.keys = s.keys ∧ t.mustBeep = s.mustBeep ∧
    t.now = s.now ∧ t.rnd = s.rnd ∧ t.inputs = s.inputs ∧ t.inputsTaken = s.inputsTaken ∧ t.out = s.out

theorem SameHostSide.refl (s : State) : SameHostSide s s := ⟨rfl, rfl, rfl, rfl, rfl, rfl, rfl, rfl, rfl⟩

theorem SameHostSide.of_regs (s : State) (u : State) (h : u = { s with regs := u.regs }) (c : Control) :
    SameHostSide s (u.advance c) := by
  rw [h]; exact ⟨rfl, rfl, rfl, rfl, rfl, rfl, rfl, rfl, rfl⟩

theorem memWrite_sameHostSide (s u : State) (a : Word) (bs : List Byte) (h : s.memWrite a bs = .ok u) :
    SameHostSide s u := by
  unfold State.memWrite at h
  split at h
  · split at h
    · cases h
    · cases h; exact SameHostSide.refl s
  · cases h

/-- An instruction that answers a next state leaves the host's side as it was. -/
theorem exec_sameHostSide (i : Instr) (s t : State) (h : exec i s = .next t) : SameHostSide s t := by
  have base : ∀ c, SameHostSide s (s.advance c) := fun c => SameHostSide.refl s
  cases i
  case ret =>
    simp only [exec, execRet] at h
    rcases s.pop_cases with ⟨-, e⟩ | ⟨_, -, e⟩ <;> rw [e] at h <;> cases h
    exact SameHostSide.refl s
  case call nnn =>
    simp only [exec, execCall] at h
    rcases s.push_cases (s.pc + 2) with ⟨_, e⟩ | ⟨-, e⟩ <;> rw [e] at h <;> cases h
    exact SameHostSide.refl s
  case drw x y n =>
    simp only [exec, execDrw] at h
    rcases s.memRead_cases s.i n.toNat with ⟨-, e⟩ | ⟨-, e⟩ <;> rw [e] at h <;> cases h
    exact SameHostSide.refl s
  case loadRegs x =>
    simp only [exec, execLoadRegs] at h
    rcases s.memRead_cases s.i (x.toNat + 1) with ⟨-, e⟩ | ⟨-, e⟩ <;> rw [e] at h <;> cases h
    exact SameHostSide.of_regs s _ (State.setVs_eq _ _ _) _
  case storeRegs x =>
    simp only [exec, execStoreRegs, finish_eq_next_iff] at h
    obtain ⟨u, hu, rfl⟩ := h
    exact memWrite_sameHostSide s u _ _ hu
  case ldBVx x =>
    simp only [exec, execLdBVx, finish_eq_next_iff] at h
    obtain ⟨u, hu, rfl⟩ := h
    exact memWrite_sameHostSide s u _ _ hu
  case skp x =>
    simp only [exec, execSkp] at h
    split at h <;> cases h
    exact SameHostSide.refl s
  case sknp x =>
    simp only [exec, execSknp] at h
    split at h <;> cases h
    exact SameHostSide.refl s
  case ldFVx x =>
    simp only [exec, execLdFVx] at h
    split at h <;> cases h
    exact SameHostSide.refl s
  case ldVxK x =>
    simp only [exec, execLdVxK] at h
    cases h
    rcases s.takeKey_cases x with ⟨-, e⟩ | ⟨-, -, e⟩ | ⟨k, -, -, e⟩ <;> rw [e] <;> exact SameHostSide.refl s
  case shr x y => cases h; exact SameHostSide.of_regs s _ (State.shiftWrite_eq _ _ _ _ _) _
  case shl x y => cases h; exact SameHostSide.of_regs s _ (State.shiftWrite_eq _ _ _ _ _) _
  all_goals cases h; exact SameHostSide.refl s

/-! ### A step -/

/-- Inversion of a step that answers a next state: the core was Running, the word at the pc was
fetched and decoded, its instruction answered a next state, and the timers and the harvest came
after it. -/
theorem step_eq_next (s t : State) (h : step s = .next t) :
    s.status = .running ∧ s.pc.toNat + 1 < s.config.fetchLimit.bound ∧
      ∃ i u, decode s.wordAtPc = .ok i ∧ exec i s.beginStep = .next u ∧ t = u.endStep := by
  unfold step at h
  split at h
  · cases h
  · rename_i hs
    unfold runPhases at h
    rcases s.beginStep.fetch_cases with ⟨hb, e⟩ | ⟨-, e⟩ <;> rw [e] at h
    · simp only [State.beginStep_wordAtPc] at h
      split at h
      · cases h
      · rename_i i hi
        split at h <;> cases h
        rename_i u hu
        exact ⟨hs, hb, i, u, hi, hu, rfl⟩
    · cases h

/-- A step is never refused. -/
theorem step_not_refused (s : State) (r : Refusal) : step s ≠ .refused r := by
  unfold step
  split
  · simp
  · unfold runPhases
    split
    · simp [raise]
    · split
      · simp [raise]
      · split
        · simp
        · simp
        · rename_i h
          exact absurd h (exec_not_refused _ _ _)

/-- What a fault of a step can be: the record of a core that was Faulted already, a fetch or decode
fault, or the fault of the instruction (R333). -/
theorem step_eq_fault (s : State) (f : Fault) (h : step s = .fault f) :
    s.status = .faulted f ∨ (s.status = .running ∧
      ((s.config.fetchLimit.bound ≤ s.pc.toNat + 1 ∧ f = .fetchOutOfBounds s.pc) ∨
        (s.pc.toNat + 1 < s.config.fetchLimit.bound ∧
          ((∃ e, decode s.wordAtPc = .error e ∧ f = .decodeFault s.pc s.wordAtPc) ∨
            ∃ i, decode s.wordAtPc = .ok i ∧ exec i s.beginStep = .fault f)))) := by
  unfold step at h
  split at h
  · cases h; exact .inl ‹_›
  · rename_i hs
    refine .inr ⟨hs, ?_⟩
    unfold runPhases at h
    rcases s.beginStep.fetch_cases with ⟨hb, e⟩ | ⟨hb, e⟩ <;> rw [e] at h
    · refine .inr ⟨hb, ?_⟩
      simp only [State.beginStep_wordAtPc] at h
      split at h
      · cases h; exact .inl ⟨_, ‹_›, rfl⟩
      · rename_i i hi
        split at h <;> cases h
        exact .inr ⟨i, hi, ‹_›⟩
    · cases h; exact .inl ⟨hb, rfl⟩

end Sys2Proof.Machine
end

