-- ==== Sys2Proof/Tests/Slice0.lean ====
section
/-! SUPPORT. Tests of the model.  Expected values come from spec/95_test_vectors.md (the vectors' names
stand in the comments) or from hand calculation by the rule named; and for each statement that has
hypotheses a witness: a concrete state and operands that meet them. -/

open Sys2Proof Sys2Proof.Machine

namespace Sys2Proof.Tests

/-! ### Helpers -/

/-- The default core with registers V1 = a and V2 = b, the operands of most vectors. -/
def two (a b : Byte) : State := (State.reset.setV 1 a).setV 2 b

/-- The default core with `w` at pc and one input of the host in its schedule. -/
def stepping (w : Nat) (u : StepInput) : State := { State.reset.withFetchWord 16 w with inputs := [u] }

/-- A host input with no key event, `ms` milliseconds after the one before, and random byte `r`. -/
def after (ms : Nat) (r : Byte) : StepInput := ⟨[], ⟨ms, 999⟩, r⟩

/-- The outcome is a next state with the property. -/
def nextWith (o : Host.Outcome State Fault Refusal) (P : State → Bool) : Bool :=
  match o with
  | .next t => P t
  | .fault _ => false
  | .refused _ => false

/-- The outcome is this fault. -/
def faultsWith (o : Host.Outcome State Fault Refusal) (f : Fault) : Bool :=
  match o with
  | .fault g => decide (g = f)
  | .next _ => false
  | .refused _ => false

theorem exists_next {o : Host.Outcome State Fault Refusal} {P : State → Bool} (h : nextWith o P = true) :
    ∃ t, o = .next t := by
  cases o with
  | next t => exact ⟨t, rfl⟩
  | fault _ => cases h
  | refused _ => cases h

theorem eq_fault {o : Host.Outcome State Fault Refusal} {f : Fault} (h : faultsWith o f = true) :
    o = .fault f := by
  cases o with
  | fault g => rw [of_decide_eq_true h]
  | next _ => cases h
  | refused _ => cases h

/-! ### Well-formedness and decoding -/

/-- R109: an assembler should refuse the operands 0x0E0 and 0x0EE of SYS; 0x0E1 it takes. -/
theorem test_wellFormed_smoke :
    (Instr.sys 0x0E0).wellFormed = false ∧ (Instr.sys 0x0EE).wellFormed = false ∧
      (Instr.sys 0x0E1).wellFormed = true ∧ (Instr.drw 15 15 0).wellFormed = true := by decide

/-- Words written out from R102 and R105, formats N and A. -/
theorem test_decode_formats_N_A :
    decode 0b0000000011100000 = .ok .cls ∧ decode 0b0000000011101110 = .ok .ret ∧
    decode 0b0000000011100001 = .ok (.sys 0x0E1) ∧ decode 0b0001101010111100 = .ok (.jp 0xABC) ∧
    decode 0b0010001000010000 = .ok (.call 0x210) ∧ decode 0b1010000100100011 = .ok (.ldI 0x123) ∧
    decode 0b1011111111111111 = .ok (.jpV0 0xFFF) := by decide

/-- Format XK: class, x, byte. -/
theorem test_decode_format_XK :
    decode 0b0011001101000010 = .ok (.seVxKk 3 0x42) ∧ decode 0b0100111100000001 = .ok (.sneVxKk 15 0x01) ∧
    decode 0b0110101001000010 = .ok (.ldVxKk 10 0x42) ∧ decode 0b0111000111111111 = .ok (.addVxKk 1 0xFF) ∧
    decode 0b1100001100001111 = .ok (.rnd 3 0x0F) := by decide

/-- Formats XYF and XYN: class, x, y, function nibble or count. -/
theorem test_decode_formats_XYF_XYN :
    decode 0b0101000100100000 = .ok (.seVxVy 1 2) ∧ decode 0b1001111000010000 = .ok (.sneVxVy 14 1) ∧
    decode 0b1000000111110000 = .ok (.ldVxVy 1 15) ∧ decode 0b1000000100100001 = .ok (.orVxVy 1 2) ∧
    decode 0b1000000100100010 = .ok (.andVxVy 1 2) ∧ decode 0b1000000100100011 = .ok (.xorVxVy 1 2) ∧
    decode 0b1000000100100100 = .ok (.addVxVy 1 2) ∧ decode 0b1000000100100101 = .ok (.sub 1 2) ∧
    decode 0b1000000101110110 = .ok (.shr 1 7) ∧ decode 0b1000000100100111 = .ok (.subn 1 2) ∧
    decode 0b1000000100001110 = .ok (.shl 1 0) ∧ decode 0b1101000100100101 = .ok (.drw 1 2 5) := by decide

/-- Format XF: class, x, function byte. -/
theorem test_decode_format_XF :
    decode 0b1110000110011110 = .ok (.skp 1) ∧ decode 0b1110000110100001 = .ok (.sknp 1) ∧
    decode 0b1111001100000111 = .ok (.ldVxDt 3) ∧ decode 0b1111001000001010 = .ok (.ldVxK 2) ∧
    decode 0b1111000100010101 = .ok (.ldDtVx 1) ∧ decode 0b1111000100011000 = .ok (.ldStVx 1) ∧
    decode 0b1111001000011110 = .ok (.addIVx 2) ∧ decode 0b1111000100101001 = .ok (.ldFVx 1) ∧
    decode 0b1111000100110011 = .ok (.ldBVx 1) ∧ decode 0b1111111101010101 = .ok (.storeRegs 15) ∧
    decode 0b1111111101100101 = .ok (.loadRegs 15) := by decide

/-- VX7 to VX9, VX11, VX13, VX14, VX16: illegal words. -/
theorem test_decode_rejects :
    decode 0x5121 = .error (.illegalWord 0x5121) ∧ decode 0x9121 = .error (.illegalWord 0x9121) ∧
    decode 0x8008 = .error (.illegalWord 0x8008) ∧ decode 0x800F = .error (.illegalWord 0x800F) ∧
    decode 0xE19F = .error (.illegalWord 0xE19F) ∧ decode 0xF075 = .error (.illegalWord 0xF075) ∧
    decode 0xFFFF = .error (.illegalWord 0xFFFF) := by decide

/-- VF7: mem = A2 3F is LD I, 0x23F; and fewer than two bytes are no instruction (R100). -/
theorem test_decodeBytes :
    decodeBytes [0xA2, 0x3F, 0x00] = .ok (.ldI 0x23F, [0x00]) ∧ decodeBytes [0xA2] = .error .truncated ∧
    decodeBytes [] = .error .truncated := by decide

/-- R105, by hand: the words an assembler writes; a shift's y is 0 (R109). -/
theorem test_encode :
    encode (assembleShr 1) = 0x8106 ∧ encode (assembleShl 15) = 0x8F0E ∧ encode (.drw 1 2 5) = 0xD125 ∧
    encode (.sneVxVy 1 2) = 0x9120 ∧ encodeBytes (.ldI 0x23F) = [0xA2, 0x3F] := by decide

/-! ### Control flow -/

/-- VC1. -/
theorem test_sys : nextWith (exec (.sys 0x123) State.reset) (fun t => decide (t.pc = 0x202)) = true := by
  decide
/-- VC2. -/
theorem test_jp : nextWith (exec (.jp 0xABC) State.reset) (fun t => decide (t.pc = 0xABC)) = true := by
  decide
/-- VC5 (D2). -/
theorem test_call : nextWith (exec (.call 0x300) State.reset)
    (fun t => decide (t.pc = 0x300 ∧ t.sp = 1 ∧ t.stack[0] = 0x202)) = true := by decide
/-- VC6. -/
theorem test_call_overflow : exec (.call 0x300) { State.reset with sp := 16 } = .fault (.stackOverflow 0x200) := rfl
/-- R173's example: SP = 1, stack[0] = 0x206. -/
theorem test_ret : nextWith (exec .ret { State.reset with sp := 1, stack := State.reset.stack.set 0 0x206 })
    (fun t => decide (t.pc = 0x206 ∧ t.sp = 0)) = true := by decide
/-- VC12: RET on the empty stack. -/
theorem test_ret_underflow : exec .ret State.reset = .fault (.stackUnderflow 0x200) := rfl
/-- VC7 and VC8. -/
theorem test_se_imm : nextWith (exec (.seVxKk 3 0x42) (State.reset.setV 3 0x42)) (fun t => decide (t.pc = 0x204)) = true ∧
    nextWith (exec (.seVxKk 3 0x42) (State.reset.setV 3 0x41)) (fun t => decide (t.pc = 0x202)) = true := by decide
/-- VC9, and R177's example. -/
theorem test_sne_imm : nextWith (exec (.sneVxKk 3 0x42) (State.reset.setV 3 0x41)) (fun t => decide (t.pc = 0x204)) = true ∧
    nextWith (exec (.sneVxKk 3 0x42) (State.reset.setV 3 0x42)) (fun t => decide (t.pc = 0x202)) = true := by decide
/-- R178's example, at 0x300. -/
theorem test_se_reg : nextWith (exec (.seVxVy 1 2) { two 7 7 with pc := 0x300 }) (fun t => decide (t.pc = 0x304)) = true := by
  decide
/-- R179's example, at 0x300. -/
theorem test_sne_reg : nextWith (exec (.sneVxVy 1 2) { two 7 8 with pc := 0x300 }) (fun t => decide (t.pc = 0x304)) = true := by
  decide
/-- R180's examples: the sum is not reduced to 12 bits. -/
theorem test_jp_v0 : nextWith (exec (.jpV0 0x300) (State.reset.setV 0 0x10)) (fun t => decide (t.pc = 0x310)) = true ∧
    nextWith (exec (.jpV0 0xFFF) (State.reset.setV 0 0xFF)) (fun t => decide (t.pc = 0x10FE)) = true := by decide

/-! ### Register loads and the ALU -/

/-- R202's example. -/
theorem test_ld_imm : nextWith (exec (.ldVxKk 10 0x42) State.reset) (fun t => decide (t.v 10 = 0x42)) = true := by decide
/-- R203's example: the sum wraps and VF stays. -/
theorem test_add_imm : nextWith (exec (.addVxKk 1 0x01) ((two 0xFF 0).setV 15 7))
    (fun t => decide (t.v 1 = 0 ∧ t.v 15 = 7)) = true := by decide
/-- R204's example. -/
theorem test_ld_reg : nextWith (exec (.ldVxVy 1 2) (two 0 0x33)) (fun t => decide (t.v 1 = 0x33 ∧ t.v 2 = 0x33)) = true := by
  decide
/-- R205's example; VF is not reset. -/
theorem test_or : nextWith (exec (.orVxVy 1 2) ((two 0xF0 0x3C).setV 15 9))
    (fun t => decide (t.v 1 = 0xFC ∧ t.v 15 = 9)) = true := by decide
/-- R206's example. -/
theorem test_and : nextWith (exec (.andVxVy 1 2) (two 0xF0 0x3C)) (fun t => decide (t.v 1 = 0x30)) = true := by decide
/-- R207's example. -/
theorem test_xor : nextWith (exec (.xorVxVy 1 2) (two 0xF0 0x3C)) (fun t => decide (t.v 1 = 0xCC)) = true := by decide
/-- W7, the sums 256 and 255. -/
theorem test_add_carry : nextWith (exec (.addVxVy 1 2) (two 0x80 0x80)) (fun t => decide (t.v 1 = 0 ∧ t.v 15 = 1)) = true ∧
    nextWith (exec (.addVxVy 1 2) (two 0x7F 0x80)) (fun t => decide (t.v 1 = 0xFF ∧ t.v 15 = 0)) = true := by decide
/-- VA23 and VA24: VF as destination ends holding the carry; VF as source gives its old value. -/
theorem test_add_vf :
    nextWith (exec (.addVxVy 15 1) ((two 0x80 0).setV 15 0x80)) (fun t => decide (t.v 15 = 1)) = true ∧
    nextWith (exec (.addVxVy 1 15) ((two 0x01 0).setV 15 5)) (fun t => decide (t.v 1 = 6 ∧ t.v 15 = 0)) = true := by decide
/-- R209's example, and VA28: equal operands give VF = 0. -/
theorem test_sub : nextWith (exec (.sub 1 2) (two 0x03 0x05)) (fun t => decide (t.v 1 = 0xFE ∧ t.v 15 = 0)) = true ∧
    nextWith (exec (.sub 3 3) (State.reset.setV 3 0x42)) (fun t => decide (t.v 3 = 0 ∧ t.v 15 = 0)) = true := by decide
/-- VA25: VF = 5 less V1 = 3 into VF leaves the flag. -/
theorem test_sub_vf : nextWith (exec (.sub 15 1) ((two 3 0).setV 15 5)) (fun t => decide (t.v 15 = 1)) = true := by decide
/-- R211's example, and VA16. -/
theorem test_subn : nextWith (exec (.subn 1 2) (two 0x03 0x05)) (fun t => decide (t.v 1 = 0x02 ∧ t.v 15 = 1)) = true ∧
    nextWith (exec (.subn 1 2) (two 0xFF 0x00)) (fun t => decide (t.v 1 = 0x01 ∧ t.v 15 = 0)) = true := by decide
/-- VA17 (V2 is not read) and VA19 (logical). -/
theorem test_shr : nextWith (exec (.shr 1 2) (two 0x81 0x55)) (fun t => decide (t.v 1 = 0x40 ∧ t.v 15 = 1 ∧ t.v 2 = 0x55)) = true ∧
    nextWith (exec (.shr 1 2) (two 0xFF 0)) (fun t => decide (t.v 1 = 0x7F ∧ t.v 15 = 1)) = true := by decide
/-- VA33: SHR VF with VF = 0x81 under each VF_WRITE_ORDER. -/
theorem test_shr_vf :
    let s (o : VfWriteOrder) : State := { State.reset.setV 15 0x81 with config := { defaultRun with vfWriteOrder := o } }
    nextWith (exec (.shr 15 0) (s .sequential)) (fun t => decide (t.v 15 = 0x00)) = true ∧
    nextWith (exec (.shr 15 0) (s .resultLast)) (fun t => decide (t.v 15 = 0x40)) = true ∧
    nextWith (exec (.shr 15 0) (s .flagLast)) (fun t => decide (t.v 15 = 0x01)) = true := by decide
/-- VA20 and VA22. -/
theorem test_shl : nextWith (exec (.shl 1 2) (two 0x81 0)) (fun t => decide (t.v 1 = 0x02 ∧ t.v 15 = 1)) = true ∧
    nextWith (exec (.shl 1 2) (two 0x7F 0)) (fun t => decide (t.v 1 = 0xFE ∧ t.v 15 = 0)) = true := by decide
/-- VA36: SHL VF with VF = 0x80 under each VF_WRITE_ORDER. -/
theorem test_shl_vf :
    let s (o : VfWriteOrder) : State := { State.reset.setV 15 0x80 with config := { defaultRun with vfWriteOrder := o } }
    nextWith (exec (.shl 15 0) (s .sequential)) (fun t => decide (t.v 15 = 0x02)) = true ∧
    nextWith (exec (.shl 15 0) (s .resultLast)) (fun t => decide (t.v 15 = 0x00)) = true ∧
    nextWith (exec (.shl 15 0) (s .flagLast)) (fun t => decide (t.v 15 = 0x01)) = true := by decide
/-- VA29: rnd = 0xAB comes from the host's input to the step. -/
theorem test_rnd : nextWith (step (stepping 0xC30F (after 0 0xAB))) (fun t => decide (t.v 3 = 0x0B ∧ t.pc = 0x202)) = true := by
  decide +kernel

/-! ### The index register and memory -/

/-- VM1. -/
theorem test_ld_i : nextWith (exec (.ldI 0x123) State.reset) (fun t => decide (t.i = 0x123)) = true := by decide
/-- VM3 and VM4: no flag, and the sum wraps at 16 bits (D10). -/
theorem test_add_i : nextWith (exec (.addIVx 2) { two 0 1 with i := 0x0FFF }) (fun t => decide (t.i = 0x1000 ∧ t.v 15 = 0)) = true ∧
    nextWith (exec (.addIVx 2) { two 0 0x20 with i := 0xFFF0 }) (fun t => decide (t.i = 0x0010)) = true := by decide
/-- VM7 and VM8. -/
theorem test_ld_f : nextWith (exec (.ldFVx 1) (two 0x0F 0)) (fun t => decide (t.i = 0x04B)) = true ∧
    faultsWith (exec (.ldFVx 1) (two 0x10 0)) (.fontDigitFault 0x200 0x10) = true := by decide
/-- VM9 and VM15. -/
theorem test_ld_b :
    nextWith (exec (.ldBVx 1) { two 0xFE 0 with i := 0x300 })
      (fun t => decide (Memory.readBlock t.mem 0x2FF 5 = [0, 2, 5, 4, 0] ∧ t.i = 0x300)) = true ∧
    nextWith (exec (.ldBVx 1) { two 7 0 with i := 0xFFD })
      (fun t => decide (Memory.readBlock t.mem 0xFFD 3 = [0, 0, 7])) = true := by decide
/-- VM16, VM17 and VM18. -/
theorem test_ld_b_faults :
    faultsWith (exec (.ldBVx 1) { two 7 0 with i := 0xFFE }) (.memOutOfBounds 0x200 0xFFE 3) = true ∧
    faultsWith (exec (.ldBVx 1) { two 7 0 with i := 0x04F }) (.fontWriteFault 0x200 0x04F) = true ∧
    nextWith (exec (.ldBVx 1) { two 0xFE 0 with i := 0x04F, config := { defaultRun with fontWrite := .write } })
      (fun t => decide (Memory.readBlock t.mem 0x4F 3 = [2, 5, 4])) = true := by decide
/-- VM20: I stays (D11). -/
theorem test_store : nextWith (exec (.storeRegs 2) { (two 2 3).setV 0 1 with i := 0x400 })
    (fun t => decide (Memory.readBlock t.mem 0x3FF 5 = [0, 1, 2, 3, 0] ∧ t.i = 0x400)) = true := by decide
/-- VM23 and VM24. -/
theorem test_store_faults :
    faultsWith (exec (.storeRegs 15) { State.reset with i := 0xFF1 }) (.memOutOfBounds 0x200 0xFF1 16) = true ∧
    faultsWith (exec (.storeRegs 15) { State.reset with i := 0x040 }) (.fontWriteFault 0x200 0x040) = true := by decide
/-- VM26: glyph 0 of the default font. -/
theorem test_load : nextWith (exec (.loadRegs 4) (State.reset.setV 5 9))
    (fun t => decide (t.vUpTo 5 = [0xF0, 0x90, 0x90, 0x90, 0xF0, 9] ∧ t.i = 0)) = true := by decide
/-- VM28 and VM29. -/
theorem test_load_faults :
    faultsWith (exec (.loadRegs 15) { State.reset with i := 0xFF1 }) (.memOutOfBounds 0x200 0xFF1 16) = true ∧
    faultsWith (exec (.loadRegs 0) { State.reset with i := 0x1000 }) (.memOutOfBounds 0x200 0x1000 1) = true := by decide

/-! ### The display -/

/-- A display with one pixel on, the top left one. -/
def dot : Frame := Frame.flip Frame.clear 0 0

/-- VD1: out = (true, false). -/
theorem test_cls : nextWith (exec .cls { State.reset with pixels := dot })
    (fun t => decide (t.pixels = Frame.clear ∧ t.endStep.out.redraw = true)) = true := by decide +kernel
/-- W2: FF FF drawn at (63, 31) wraps at both edges. -/
theorem test_drw_wraps :
    nextWith (exec (.drw 1 2 2) { two 63 31 with i := 0x300, mem := [(0x300, 0xFF), (0x301, 0xFF)] })
      (fun t => Frame.pixel t.pixels 31 63 && Frame.pixel t.pixels 31 6 && !Frame.pixel t.pixels 31 7 &&
        Frame.pixel t.pixels 0 63 && Frame.pixel t.pixels 0 0 && !Frame.pixel t.pixels 1 0 &&
        decide (t.v 15 = 0)) = true := by decide
/-- VD8 and VD7: the struck pixel goes off with VF = 1; a 0 bit does not collide.  VD14: DF11 draws at
the column of the old VF. -/
theorem test_drw_collides :
    nextWith (exec (.drw 1 2 1) { State.reset with pixels := dot, i := 0x300, mem := [(0x300, 0xC0)] })
      (fun t => !Frame.pixel t.pixels 0 0 && Frame.pixel t.pixels 0 1 && decide (t.v 15 = 1)) = true ∧
    nextWith (exec (.drw 1 2 1) { State.reset with pixels := dot, i := 0x300, mem := [(0x300, 0x40)] })
      (fun t => Frame.pixel t.pixels 0 0 && Frame.pixel t.pixels 0 1 && decide (t.v 15 = 0)) = true ∧
    nextWith (exec (.drw 15 1 1) { State.reset.setV 15 5 with i := 0x300, mem := [(0x300, 0x80)] })
      (fun t => Frame.pixel t.pixels 0 5 && !Frame.pixel t.pixels 0 0 && decide (t.v 15 = 0)) = true := by decide

/-! ### The keyboard -/

/-- VK1, VK2 and VK5. -/
theorem test_skp :
    nextWith (exec (.skp 1) { two 5 0 with keys := State.reset.keys.set 5 true }) (fun t => decide (t.pc = 0x204)) = true ∧
    nextWith (exec (.skp 1) (two 5 0)) (fun t => decide (t.pc = 0x202)) = true ∧
    faultsWith (exec (.skp 1) (two 0x10 0)) (.keyIndexFault 0x200 0x10) = true := by decide
/-- VK3, VK4 and VK6. -/
theorem test_sknp :
    nextWith (exec (.sknp 1) { two 5 0 with keys := State.reset.keys.set 5 true }) (fun t => decide (t.pc = 0x202)) = true ∧
    nextWith (exec (.sknp 1) (two 5 0)) (fun t => decide (t.pc = 0x204)) = true ∧
    faultsWith (exec (.sknp 1) (two 0xFF 0)) (.keyIndexFault 0x200 0xFF) = true := by decide
/-- VK7: a key held before the wait does not satisfy it (C10). -/
theorem test_wait_begins :
    nextWith (exec (.ldVxK 2) { State.reset with keys := State.reset.keys.set 3 true })
      (fun t => decide (t.waiting = true ∧ t.pc = 0x200 ∧ t.v 2 = 0)) = true := by decide
/-- VK10 and VK11 in one step: press 7, press 2, release 7; the first key wins. -/
theorem test_wait_ends :
    nextWith (step { stepping 0xF20A ⟨[.press 7, .press 2, .release 7], ⟨0, 0⟩, 0⟩ with waiting := true })
      (fun t => decide (t.v 2 = 7 ∧ t.waiting = false ∧ t.latch = none ∧ t.pc = 0x202 ∧
        t.keyDown 2 = true ∧ t.keyDown 7 = false)) = true := by decide +kernel

/-! ### The timers and the step -/

/-- VT2: V3 = 1 is read before the tick of the same step, 20 ms on. -/
theorem test_ld_vx_dt :
    nextWith (step { stepping 0xF307 (after 20 0) with dt := ⟨1, 0⟩ })
      (fun t => decide (t.v 3 = 1 ∧ t.dt.count = 0)) = true := by decide +kernel
/-- VT3: DT = 5 and its tick-start instant 10 ms, with no decrement. -/
theorem test_ld_dt_vx :
    nextWith (step ((stepping 0xF115 (after 10 0)).setV 1 5))
      (fun t => decide (t.dt = ⟨5, 1 / 100⟩)) = true := by decide +kernel
/-- VT6, the first steps: F118 sets ST and does not beep; a step 20 ms on decrements and beeps. -/
theorem test_ld_st_vx :
    nextWith (step ((stepping 0xF118 (after 0 0)).setV 1 3))
      (fun t => decide (t.st.count = 3 ∧ t.out.beep = false)) = true ∧
    nextWith (step { stepping 0x0000 (after 20 0) with st := ⟨3, 0⟩ })
      (fun t => decide (t.st.count = 2 ∧ t.out = ⟨false, true⟩ ∧ t.mustBeep = false)) = true := by decide +kernel
/-- VT9 and VT7: 16 ms is below the period, exactly 1/60 s is not. -/
theorem test_countdown_boundary :
    (⟨2, 0⟩ : Timer).countdown (1 / 60) (16 / 1000) = ⟨2, 0⟩ ∧
    (⟨2, 0⟩ : Timer).countdown (1 / 60) (1 / 60) = ⟨1, 1 / 60⟩ ∧
    (⟨0, 0⟩ : Timer).countdown (1 / 60) 1 = ⟨0, 0⟩ := by decide +kernel
/-- VF1 to VF3: the fetch at 4092, 4093 and 4094 under each FETCH_LIMIT. -/
theorem test_fetch_limit :
    let f (l : FetchLimit) (p : Word) : Bool :=
      ({ State.reset with pc := p, config := { defaultRun with fetchLimit := l } } : State).fetch.toBool
    f .below4094 4092 = true ∧ f .below4094 4093 = false ∧ f .below4095 4093 = true ∧
    f .below4095 4094 = false ∧ f .below4096 4094 = true ∧ f .below4096 4095 = false := by decide
/-- VS2 and VS3: a fault changes the status and ticks no timer; a Faulted core faults again. -/
theorem test_fault_is_final :
    let s : State := { stepping 0x5121 (after 1000 0) with dt := ⟨5, 0⟩ }
    faultsWith (step s) (.decodeFault 0x200 0x5121) = true ∧
    s.after.status = .faulted (.decodeFault 0x200 0x5121) ∧ s.after.dt = ⟨5, 0⟩ ∧ s.after.pc = 0x200 ∧
    faultsWith (step s.after) (.decodeFault 0x200 0x5121) = true := by decide +kernel
/-- The program interface: the table word at the pc is what the step after reset runs. -/
theorem test_withFetchWord :
    nextWith (step (State.reset.withFetchWord 16 0x6A42)) (fun t => decide (t.v 10 = 0x42 ∧ t.pc = 0x202)) = true ∧
    decodeTableWord 16 0x6A42 = some (.ldVxKk 10 0x42) ∧ decodeTableWord 16 0x5121 = none := by decide
/-- Writing the value that an unlisted address reads as removes the entry. -/
theorem test_memory_canonical :
    Memory.write (Memory.write [] 0x300 7) 0x300 0 = [] ∧
    Memory.writeBlock [(0x301, 9)] 0x300 [1, 0, 2] = [(0x300, 1), (0x302, 2)] := by decide

/-! ### Witnesses: states and operands that meet the hypotheses of the statements -/

/-- A core about to run SYS 0x000 with one input scheduled. -/
def idleStep : State := stepping 0x0000 (after 0 0)

/-- For RedrawExactlyOnClsOrDrw, BeepExactlyOnDecrement, TimersDecayByAtMostOne and
TimerSetHoldsThroughItsStep. -/
theorem witness_running : idleStep.status = .running ∧ idleStep.mustDraw = false ∧ idleStep.mustBeep = false ∧
    0 < idleStep.config.tickPeriod ∧ ∃ t, step idleStep = .next t :=
  ⟨rfl, rfl, rfl, by decide +kernel, exists_next (P := fun _ => true) (by decide +kernel)⟩

/-- A ROM of two bytes under the defaults is admitted, and the fetch at ORIGIN is in bounds. -/
theorem witness_ConstructionStartsAtOrigin :
    (∃ s, construct defaultConfig [0x12, 0x00] = .ok s) ∧
      defaultConfig.origin + 1 < defaultConfig.run.fetchLimit.bound := by
  refine ⟨⟨_, if_pos ?_ |>.trans (if_pos ?_)⟩, ?_⟩ <;> decide +kernel

/-- For ConstructionSetsEveryField and ConstructionMeetsInvariant: ORIGIN at both ends and a ROM of every
byte above it are admitted; and one ORIGIN below, one above, one ROM too long, a TICK_PERIOD of 0 and a
negative T0 are refused. -/
theorem witness_ConstructionSetsEveryField :
    (construct { defaultConfig with origin := 80 } (List.replicate 4016 1)).toBool = true ∧
    (construct { defaultConfig with origin := 4094 } [1, 2]).toBool = true ∧
    (construct { defaultConfig with origin := 79 } []).toBool = false ∧
    (construct { defaultConfig with origin := 4095 } []).toBool = false ∧
    (construct { defaultConfig with origin := 4094 } [1, 2, 3]).toBool = false ∧
    (construct { defaultConfig with run := { defaultRun with tickPeriod := 0 } } []).toBool = false ∧
    (construct { defaultConfig with t0 := -1 } []).toBool = false := by decide +kernel

/-- The last address of each range: font, ROM, fill below and fill above. -/
theorem witness_ConstructedMemoryHoldsFontRomAndFill :
    (∃ s, construct defaultConfig [0x12, 0x34] = .ok s) ∧ 79 < 80 ∧ 1 < [0x12, 0x34].length ∧
      (80 ≤ 511 ∧ 511 < defaultConfig.origin) ∧ defaultConfig.origin + 2 ≤ 4095 := by
  refine ⟨⟨_, if_pos ?_ |>.trans (if_pos ?_)⟩, ?_⟩ <;> decide +kernel

theorem witness_StepKeepsInvariant : ∃ s t, State.Inv s ∧ step s = .next t :=
  have h := witness_running
  ⟨idleStep, h.2.2.2.2.choose, {
    latchOnlyWaiting := fun _ => rfl
    edgesClear := ⟨rfl, rfl⟩
    waitsOnKeyInstr := fun h => by cases h
    dtStarted := by decide +kernel
    stStarted := by decide +kernel
    memCanonical := by decide
    periodPositive := by decide +kernel
    clockNonNegative := by decide +kernel }, h.2.2.2.2.choose_spec⟩

/-- The last fetchable pc and the first that is not, under the default and the largest limit. -/
theorem witness_FetchReadsBigEndianOrFaults :
    let f (l : FetchLimit) (p : Nat) : Bool := decide (p + 1 < (RunConfig.fetchLimit { defaultRun with fetchLimit := l }).bound)
    State.reset.status = .running ∧ f .below4094 4092 = true ∧ f .below4094 4093 = false ∧
      f .below4096 4094 = true ∧ f .below4096 4095 = false := by decide

theorem witness_IllegalWordFaults :
    (stepping 0x5121 (after 0 0)).status = .running ∧
    (stepping 0x5121 (after 0 0)).pc.toNat + 1 < (stepping 0x5121 (after 0 0)).config.fetchLimit.bound ∧
    decode (stepping 0x5121 (after 0 0)).wordAtPc = .error (.illegalWord 0x5121) ∧
    decode (stepping 0x5120 (after 0 0)).wordAtPc = .ok (.seVxVy 1 2) := by decide

/-- A fetch out of bounds, an illegal word, an instruction that completes and one that faults. -/
theorem witness_StepRunsDecodedInstruction :
    State.reset.status = .running ∧
    ({ State.reset with pc := 0xFFE } : State).config.fetchLimit.bound ≤ 0xFFE + 1 ∧
    decode (stepping 0x9121 (after 0 0)).wordAtPc = .error (.illegalWord 0x9121) ∧
    decode idleStep.wordAtPc = .ok (.sys 0) ∧ (∃ u, exec (.sys 0) idleStep.beginStep = .next u) ∧
    decode (stepping 0x00EE (after 0 0)).wordAtPc = .ok .ret ∧
    exec .ret (stepping 0x00EE (after 0 0)).beginStep = .fault (.stackUnderflow 0x200) := by
  refine ⟨rfl, by decide, by decide, by decide, ⟨_, rfl⟩, by decide, rfl⟩

theorem witness_FaultedCoreStaysFaulted :
    ({ State.reset with status := .faulted (.stackUnderflow 0x200) } : State).status =
      .faulted (.stackUnderflow 0x200) := rfl

theorem witness_FaultsArePrecise :
    State.reset.status = .running ∧
    step ({ State.reset with pc := 0xFFE } : State) = .fault (.fetchOutOfBounds 0xFFE) :=
  ⟨rfl, eq_fault (by decide)⟩

/-- A schedule with an input and an empty one, an Idle keyboard, and a latched key. -/
theorem witness_HostInputTouchesKeysAndClockOnly :
    idleStep.inputs = after 0 0 :: [] ∧ State.reset.inputs = [] ∧
    State.reset.waiting = false ∧ ({ State.reset with waiting := true, latch := some 7 } : State).latch = some 7 :=
  ⟨rfl, rfl, rfl, rfl⟩

theorem witness_StoredWordIsFetchedNext :
    let s : State := { State.reset with i := 0x202 }
    1 ≤ (1 : RegIdx).toNat ∧ s.waiting = false ∧ s.i.toNat = s.pc.toNat + 2 ∧
      ∃ t, exec (.storeRegs 1) s = .next t := by
  refine ⟨by decide, rfl, rfl, exists_next (P := fun _ => true) (by decide)⟩

theorem witness_DecodeOfEncode : (Instr.sys 0x0EF).wellFormed = true ∧ (Instr.storeRegs 15).wellFormed = true := by decide
theorem witness_EncodeOfDecode : decode 0x81F6 = .ok (.shr 1 15) ∧ decode 0x0000 = .ok (.sys 0) := by decide

/-- A word that selects one row, and one that selects the two rows CLS and SYS. -/
theorem witness_OpcodeMap :
    decode 0xFF65 = .ok (.loadRegs 15) ∧ 0xFF65 &&& rowMask (.loadRegs 0) = rowMatch (.loadRegs 0) ∧
    0x00E0 &&& rowMask .cls = rowMatch .cls ∧ 0x00E0 &&& rowMask (.sys 0) = rowMatch (.sys 0) := by decide

/-- Each of the five classes has a word, at its edges. -/
theorem witness_IllegalWords :
    fieldS 0x5001 = 5 ∧ fieldN 0x5001 ≠ 0 ∧ fieldS 0x9FFF = 9 ∧ fieldN 0x9FFF ≠ 0 ∧
    (8 ≤ (fieldN 0x8008).toNat ∧ (fieldN 0x8008).toNat ≠ 14) ∧ (8 ≤ (fieldN 0x800F).toNat ∧ (fieldN 0x800F).toNat ≠ 14) ∧
    fieldKK 0xE09D ≠ 0x9E ∧ fieldKK 0xE09D ≠ 0xA1 ∧
    ¬ fieldKK 0xF066 ∈ [0x07, 0x0A, 0x15, 0x18, 0x1E, 0x29, 0x33, 0x55, 0x65] := by decide

theorem witness_SysIsANoOp : (0x0E1 : Imm12) ≠ 0x0E0 ∧ (0x0E1 : Imm12) ≠ 0x0EE := by decide

/-- For RetPopsThePc, CallPushesTheReturnAddress and CallThenRetReturns: SP at 0, 1 and 16 for RET; at 0,
15 and 16 for CALL. -/
theorem witness_stack :
    State.reset.sp.val = 0 ∧ 0 < ({ State.reset with sp := 1 } : State).sp.val ∧
    0 < ({ State.reset with sp := 16 } : State).sp.val ∧
    State.reset.sp.val < 16 ∧ ({ State.reset with sp := 15 } : State).sp.val < 16 ∧
    ({ State.reset with sp := 16 } : State).sp.val = 16 := by decide

/-- For the statements of SkipsOnRegisters, the ALU and RND: x and y equal and different; x the flag
register and another; a mask of 0 and of 0xFF. -/
theorem witness_registers :
    (3 : RegIdx) = 3 ∧ (3 : RegIdx) ≠ 4 ∧ (14 : RegIdx) ≠ VF ∧ (15 : RegIdx) = VF ∧
    (0x00 : Byte) = 0 ∧ (0xFF : Byte) = 0xFF := by decide

/-- For LdFVxPointsAtTheGlyph: the digits 15 and 16. -/
theorem witness_LdFVx : ((two 15 0).v 1).toNat ≤ 15 ∧ 15 < ((two 16 0).v 1).toNat := by decide

/-- For LdBVxStoresDigits: I = 4093 (stores), 4094 (out of bounds), 79 (font), 80 (stores), and 79 under FONT_WRITE = write. -/
theorem witness_LdBVx :
    (4093#16).toNat + 3 ≤ 4096 ∧ ¬ (State.reset.config.fontWrite = .fault ∧ (4093#16).toNat < 80) ∧
    4096 < (4094#16).toNat + 3 ∧ (State.reset.config.fontWrite = .fault ∧ (79#16).toNat < 80) ∧
    ¬ (State.reset.config.fontWrite = .fault ∧ (80#16).toNat < 80) ∧
    ¬ (({ defaultRun with fontWrite := .write } : RunConfig).fontWrite = .fault ∧ (79#16).toNat < 80) := by decide

/-- For StoreRegsStoresV0ToVx and LoadRegsLoadsV0ToVx: with x = 15, I = 0xFF0 is in bounds and
I = 0xFF1 is not; the font clauses are witnessed as for LdBVxStoresDigits. -/
theorem witness_StoreAndLoad :
    (0xFF0#16).toNat + (15 : RegIdx).toNat + 1 ≤ 4096 ∧ 4096 < (0xFF1#16).toNat + (15 : RegIdx).toNat + 1 ∧
    (0 : RegIdx).toNat ≤ (0 : RegIdx).toNat ∧ (14 : RegIdx).toNat < (15 : RegIdx).toNat := by decide

/-- For DrwXorsTheSprite: n = 0 at I = 4096 and 4097; a lit pixel that the sprite covers, and a display
with none. -/
theorem witness_Drw :
    (4096#16).toNat + (0 : BitVec 4).toNat ≤ 4096 ∧ 4096 < (4097#16).toNat + (0 : BitVec 4).toNat ∧
    Frame.pixel dot 0 0 = true ∧ (Memory.read [(0x300, 0x80)] 0x300).toNat / 2 ^ (7 - 0) % 2 = 1 ∧
    Frame.pixel Frame.clear 0 0 = false := by decide

/-- For CollisionIsAPixelTurnedOff and DrawingTwiceRestoresTheDisplay: sprites of 0 and 15 bytes, one of zeros,
and a draw that turns a pixel off. -/
theorem witness_Sprites :
    ([] : List Byte).length ≤ 15 ∧ (List.replicate 15 (0xFF : Byte)).length ≤ 15 ∧
    (∀ b ∈ [(0 : Byte), 0], b = 0) ∧
    Frame.pixel dot 0 0 = true ∧ Frame.pixel (Frame.drawSprite dot [0x80] 0 0).1 0 0 = false ∧
    (Frame.drawSprite dot [0x80] 0 0).2 = true := by decide

/-- For SkipsOnKeys and LdVxKWaitsForAKey: the key values 15 and 16, and the keyboard's three cases at Fx0A. -/
theorem witness_Keys :
    (15 : Key).toNat = ((two 15 0).v 1).toNat ∧ 15 < ((two 16 0).v 1).toNat ∧
    State.reset.waiting = false ∧
    (({ State.reset with waiting := true } : State).waiting = true ∧ ({ State.reset with waiting := true } : State).latch = none) ∧
    ({ State.reset with waiting := true, latch := some 15 } : State).latch = some 15 := by decide

/-- For UnpressKeyClearsTheKey and PressKeyLatchesTheFirstKey: the host's keys 15 and 16; the cases of
the latch are witnessed as for LdVxKWaitsForAKey. -/
theorem witness_HostKeys :
    (State.reset.hostPressKey 15).isSome = true ∧ State.reset.hostPressKey 16 = none ∧
    (State.reset.hostUnpressKey 15).isSome = true ∧ State.reset.hostUnpressKey 16 = none := by decide

theorem witness_LdVxDtReads :
    let s := stepping 0xF307 (after 0 0)
    decode s.wordAtPc = .ok (.ldVxDt 3) ∧ ∃ t, step s = .next t :=
  ⟨by decide, exists_next (P := fun _ => true) (by decide +kernel)⟩

/-- For CountdownDecrementsWhenDue: each timer due exactly at its period, not due before it, and not due at 0. -/
theorem witness_Countdown :
    let s : State := { State.reset with dt := ⟨1, 0⟩, st := ⟨255, 0⟩, now := 1 / 60 }
    (s.dt.count ≠ 0 ∧ s.config.tickPeriod ≤ s.now - s.dt.tickStart) ∧
    (s.st.count ≠ 0 ∧ s.config.tickPeriod ≤ s.now - s.st.tickStart) ∧
    ¬ (s.config.tickPeriod ≤ 16 / 1000 - s.dt.tickStart) ∧ ¬ State.reset.dt.count ≠ 0 := by decide +kernel

/-- For TimersDecayByAtMostOne and TimerSetHoldsThroughItsStep: steps that set each timer, and one that sets neither. -/
theorem witness_TimerSteps :
    let d := stepping 0xF115 (after 0 0)
    let e := stepping 0xF118 (after 0 0)
    0 < d.config.tickPeriod ∧ decode d.wordAtPc = .ok (.ldDtVx 1) ∧ (∃ t, step d = .next t) ∧
    decode e.wordAtPc = .ok (.ldStVx 1) ∧ (∃ t, step e = .next t) ∧
    (∀ x, decode idleStep.wordAtPc ≠ .ok (.ldDtVx x)) ∧ (∀ x, decode idleStep.wordAtPc ≠ .ok (.ldStVx x)) :=
  ⟨by decide +kernel, by decide, exists_next (P := fun _ => true) (by decide +kernel), by decide,
    exists_next (P := fun _ => true) (by decide +kernel), by decide, by decide⟩

/-- A core parked at 0x200. -/
theorem witness_ParkedStaysParked : (stepping 0x1200 (after 0 0)).Parked 0x200 :=
  { running := rfl, atE := rfl, fetchable := by decide, idle := rfl, selfJump := by decide }

/-- Each kind of state is written by some instruction. -/
theorem witness_OnlyTheNamedInstructionsWrite :
    nextWith (exec (.ldVxKk 15 1) State.reset) (fun t => decide (t.v 15 ≠ State.reset.v 15)) = true ∧
    nextWith (exec (.ldI 1) State.reset) (fun t => decide (t.i ≠ State.reset.i)) = true ∧
    nextWith (exec (.call 0) State.reset) (fun t => decide (t.sp ≠ State.reset.sp)) = true ∧
    nextWith (exec .cls State.reset) (fun t => decide (t.mustDraw ≠ State.reset.mustDraw)) = true ∧
    nextWith (exec (.storeRegs 0) ({ State.reset with i := 80 }.setV 0 1)) (fun t => decide (t.mem ≠ State.reset.mem)) = true ∧
    nextWith (exec (.ldVxK 0) State.reset) (fun t => decide (t.waiting ≠ State.reset.waiting)) = true ∧
    nextWith (exec (.ldDtVx 1) (two 1 0)) (fun t => decide (t.dt.count ≠ (two 1 0).dt.count)) = true ∧
    nextWith (exec (.ldStVx 1) (two 1 0)) (fun t => decide (t.st.count ≠ (two 1 0).st.count)) = true := by decide

end Sys2Proof.Tests
end

section
/-! SUPPORT. The proofs of the family 00_scope.md: what the host's input does to the state between two
steps (R8, R152, R292, R293). -/

open Sys2Proof Sys2Proof.Machine Sys2Proof.Statements

namespace Sys2Proof.Proofs.Scope

/-! ### The next input -/

theorem nextInput_of_cons {s : State} {u : StepInput} {us : List StepInput} (h : s.inputs = u :: us) :
    s.nextInput = u := by
  simp [State.nextInput, h]

theorem nextInput_of_nil {s : State} (h : s.inputs = []) :
    s.nextInput = Config.freeInput s.inputsTaken := by
  simp [State.nextInput, h]

/-! ### Key events -/

/-- PressKey and UnpressKey by their pseudocode are the model's update for a single key event. -/
theorem hostKeyEvent_eq_keyEvents (s : State) (e : KeyEvent) : hostKeyEvent s e = s.keyEvents [e] := by
  cases e with
  | press k => rfl
  | release k => rfl

/-- The model folds keys and latch side by side with one `waiting`; since no event writes `waiting`,
that is the pseudocode applied to the whole state, event by event. -/
theorem foldl_hostKeyEvent (es : List KeyEvent) (s : State) :
    es.foldl hostKeyEvent s = s.keyEvents es := by
  induction es generalizing s with
  | nil => rfl
  | cons e es ih =>
    rw [List.foldl_cons, hostKeyEvent_eq_keyEvents, ih, ← State.keyEvents_cons]

/-! ### What a step finds -/

theorem beginStep_eq_foldl_hostKeyEvent (s : State) :
    s.beginStep = { s.nextInput.events.foldl hostKeyEvent s with
      now := s.now + s.nextInput.elapsed.seconds, rnd := s.nextInput.rnd,
      inputs := s.inputs.tail, inputsTaken := s.inputsTaken + 1 } := by
  rw [foldl_hostKeyEvent]
  rfl

theorem beginStep_frame (s : State) :
    s.beginStep = { s with
      keys := s.beginStep.keys, latch := s.beginStep.latch, now := s.beginStep.now,
      rnd := s.nextInput.rnd, inputs := s.inputs.tail, inputsTaken := s.inputsTaken + 1 } := rfl

theorem beginStep_latch_of_idle {s : State} (h : s.waiting = false) : s.beginStep.latch = s.latch := by
  rw [State.beginStep_latch, h, latch_foldl_idle]

theorem beginStep_latch_of_some {s : State} {k : Key} (h : s.latch = some k) :
    s.beginStep.latch = some k := by
  rw [State.beginStep_latch, h, latch_foldl_some]

/-- Settles O12: the model's key events are the pseudocode's, by induction on the list of events; the
clock and the latch are as the laws of a step's input say. -/
theorem hostInputTouchesKeysAndClockOnly : Obligations.HostInputTouchesKeysAndClockOnly := by
  unfold Obligations.HostInputTouchesKeysAndClockOnly
  intro s
  exact ⟨fun _ _ => nextInput_of_cons, nextInput_of_nil, beginStep_eq_foldl_hostKeyEvent s,
    beginStep_frame s, s.beginStep_clock, beginStep_latch_of_idle, fun _ => beginStep_latch_of_some⟩

end Sys2Proof.Proofs.Scope
end

section
/-! SUPPORT. The proofs of the family 10_state.md: what a construction leaves in memory and at the pc
(R48, R54, R371), everything an instruction can do to the state (R32 to R40, R79), and the invariants of
R56 from construction through every step. -/

open Sys2Proof Sys2Proof.Machine Sys2Proof.Statements

namespace Sys2Proof.Proofs.MachineState

/-! ### Construction (R48, R54) -/

theorem initialByte_font (cfg : Config) (rom : List Byte) {a : Nat} (h : a < 80) :
    initialByte cfg rom a = cfg.font[a] := by
  simp [initialByte, h]

theorem initialByte_rom (cfg : Config) (rom : List Byte) {k : Nat} (ho : 80 ≤ cfg.origin)
    (h : k < rom.length) : initialByte cfg rom (cfg.origin + k) = rom[k] := by
  simp [initialByte, h, show ¬ cfg.origin + k < 80 by omega]

theorem initialByte_fill (cfg : Config) (rom : List Byte) {a : Nat} (h : 80 ≤ a)
    (ha : a < cfg.origin ∨ cfg.origin + rom.length ≤ a) : initialByte cfg rom a = cfg.memFill a := by
  unfold initialByte
  rw [dif_neg (by omega)]
  split
  · exact List.getD_eq_default _ _ (by omega)
  · rfl

/-- Settles O3: memory reads as `initialByte` below 4096, and its three ranges are the three clauses. -/
theorem constructedMemoryHoldsFontRomAndFill : Obligations.ConstructedMemoryHoldsFontRomAndFill := by
  unfold Obligations.ConstructedMemoryHoldsFontRomAndFill
  intro cfg rom s hs
  obtain ⟨⟨ho, -, -, -, hfit⟩, rfl⟩ := (construct_eq_ok_iff cfg rom s).1 hs
  refine ⟨fun a h => ?_, fun k h => ?_, fun a h h' ha => ?_⟩
  · rw [read_constructed _ _ _ (by omega), initialByte_font]
  · rw [read_constructed _ _ _ (by omega), initialByte_rom _ _ ho h]
  · rw [read_constructed _ _ _ h', initialByte_fill _ _ h ha]

/-- A fetch in bounds reads the big-endian word at the pc (R76, R77). -/
theorem fetch_toNat {s : State} (h : s.pc.toNat + 1 < s.config.fetchLimit.bound) :
    ∃ w, s.fetch = .ok w ∧ w.toNat =
      (Memory.read s.mem s.pc.toNat).toNat * 256 + (Memory.read s.mem (s.pc.toNat + 1)).toNat := by
  rcases s.fetch_cases with ⟨-, e⟩ | ⟨h', -⟩
  · exact ⟨_, e, wordOfBytes_toNat _ _⟩
  · omega

/-- Settles O1: the constructed pc is ORIGIN, and the host's input to the first step moves neither the pc
nor memory. -/
theorem constructionStartsAtOrigin : Obligations.ConstructionStartsAtOrigin := by
  unfold Obligations.ConstructionStartsAtOrigin
  refine ⟨fun cfg rom s hs => ?_, rfl⟩
  obtain ⟨⟨-, ho, -⟩, rfl⟩ := (construct_eq_ok_iff cfg rom s).1 hs
  have hpc : (constructed cfg rom).pc.toNat = cfg.origin := by
    rw [constructed_pc, BitVec.toNat_ofNat, Nat.mod_eq_of_lt (by omega)]
  refine ⟨hpc, fun hb => ?_⟩
  rw [← hpc] at hb ⊢
  simpa only [State.beginStep_pc, State.beginStep_mem] using
    fetch_toNat (s := (constructed cfg rom).beginStep) hb

/-! ### The invariant at construction and reset (R56) -/

theorem waitsOnKeyInstr_of_idle {s : State} (h : s.waiting = false) : s.WaitsOnKeyInstr :=
  fun hw => absurd hw (by simp [h])

theorem constructed_inv {cfg : Config} (rom : List Byte) (hp : 0 < cfg.run.tickPeriod) (ht : 0 ≤ cfg.t0) :
    (constructed cfg rom).Inv where
  latchOnlyWaiting _ := constructed_latch cfg rom
  edgesClear := ⟨constructed_mustDraw cfg rom, constructed_mustBeep cfg rom⟩
  waitsOnKeyInstr := waitsOnKeyInstr_of_idle (constructed_waiting cfg rom)
  dtStarted := by simp
  stStarted := by simp
  memCanonical := by simpa only [constructed_mem] using Memory.ofBytes_wf _
  periodPositive := by simpa using hp
  clockNonNegative := by simpa using ht

/-- Settles O60: an admitted construction has a positive period and a clock that is not negative, and the
memory built from `initialByte` is canonical. -/
theorem constructionMeetsInvariant : Obligations.ConstructionMeetsInvariant := by
  unfold Obligations.ConstructionMeetsInvariant
  intro cfg rom s hs
  obtain ⟨⟨-, -, hp, ht, -⟩, rfl⟩ := (construct_eq_ok_iff cfg rom s).1 hs
  exact constructed_inv rom hp ht

/-- Settles O5: nothing waits or is latched, every instant is T0 = 0, and memory lists no cell. -/
theorem resetMeetsInvariant : Obligations.ResetMeetsInvariant where
  latchOnlyWaiting _ := rfl
  edgesClear := ⟨rfl, rfl⟩
  waitsOnKeyInstr := waitsOnKeyInstr_of_idle rfl
  dtStarted := le_rfl
  stStarted := le_rfl
  memCanonical := Memory.wf_nil
  periodPositive := by norm_num [State.reset, defaultConfig, defaultRun]
  clockNonNegative := le_rfl

/-! ### What an instruction can do -/

/-- `u` is `s` but for general registers, and of those only some that `i` may write (R32). -/
def RegsWritten (s : State) (i : Instr) (u : State) : Prop :=
  (∃ regs, u = { s with regs := regs }) ∧ ∀ r, u.v r ≠ s.v r → MayWriteReg i r

namespace RegsWritten

variable {s u : State} {i : Instr}

theorem refl (s : State) (i : Instr) : RegsWritten s i s := ⟨⟨s.regs, rfl⟩, fun _ h => absurd rfl h⟩

theorem setV (hu : RegsWritten s i u) {x : RegIdx} (b : Byte) (hx : MayWriteReg i x) :
    RegsWritten s i (u.setV x b) := by
  obtain ⟨⟨regs, rfl⟩, hr⟩ := hu
  refine ⟨⟨_, rfl⟩, fun r h => ?_⟩
  by_cases hrx : r = x
  · exact hrx ▸ hx
  · exact hr r (State.v_setV_ne _ _ _ b hrx ▸ h)

theorem of_setV (s : State) {x : RegIdx} (b : Byte) (hx : MayWriteReg i x) :
    RegsWritten s i (s.setV x b) :=
  (refl s i).setV b hx

theorem of_shiftWrite (s : State) {x : RegIdx} (g : Byte → Byte) (f : Byte) (o : VfWriteOrder)
    (hx : MayWriteReg i x) (hf : MayWriteReg i VF) : RegsWritten s i (s.shiftWrite x g f o) := by
  cases o with
  | flagLast => exact (of_setV s _ hx).setV _ hf
  | resultLast => exact (of_setV s _ hf).setV _ hx
  | sequential => exact (of_setV s _ hf).setV _ hx

/-- LOAD_REGS writes V0 to V[x] (R235). -/
theorem of_setVs (s : State) (x : RegIdx) {bs : List Byte} (hbs : bs.length = x.toNat + 1) :
    RegsWritten s (.loadRegs x) (s.setVs 0 bs) := by
  refine ⟨⟨_, State.setVs_eq s 0 bs⟩, fun r h => ?_⟩
  by_contra hrx
  have hgt : x.toNat < r.toNat := Nat.lt_of_not_le hrx
  exact h (State.setVs_keeps s 0 bs r (by omega) (by omega))

end RegsWritten

/-- `ExecEffect s i t`: everything that executing `i` in `s` can leave as the next state `t`, one
constructor for each piece of state beside the pc that is written, with the instructions that write it. -/
inductive ExecEffect (s : State) (i : Instr) : State → Prop
  /-- General registers or none: the ALU, the jumps, the skips, SYS and the loads of a register. -/
  | registers {u : State} (c : Control) (hu : RegsWritten s i u) : ExecEffect s i (u.advance c)
  /-- The index register (R34). -/
  | index (a pc : Word) (hi : (∃ nnn, i = .ldI nnn) ∨ (∃ x, i = .addIVx x) ∨ ∃ x, i = .ldFVx x) :
      ExecEffect s i { s with i := a, pc := pc }
  /-- The return stack (R35). -/
  | stack (stack : Vector Word 16) (sp : Fin 17) (pc : Word) (hi : i = .ret ∨ ∃ nnn, i = .call nnn) :
      ExecEffect s i { s with stack := stack, sp := sp, pc := pc }
  /-- The display, with VF where it is DRW that writes it (R39). -/
  | display {u : State} (pixels : Frame) (pc : Word) (hu : RegsWritten s i u)
      (hi : i = .cls ∨ ∃ x y n, i = .drw x y n) :
      ExecEffect s i { u with pixels := pixels, mustDraw := true, pc := pc }
  /-- A block of memory that is in bounds (R79). -/
  | memory (a : Nat) (bs : List Byte) (pc : Word) (hb : a + bs.length ≤ memSize)
      (hi : (∃ x, i = .ldBVx x) ∨ ∃ x, i = .storeRegs x) :
      ExecEffect s i { s with mem := Memory.writeBlock s.mem a bs, pc := pc }
  /-- The delay timer, started at the step's clock sample (R36). -/
  | delayTimer (v : Byte) (pc : Word) (hi : ∃ x, i = .ldDtVx x) :
      ExecEffect s i { s with dt := Timer.setTime v s.now, pc := pc }
  /-- The sound timer, started at the step's clock sample (R38). -/
  | soundTimer (v : Byte) (pc : Word) (hi : ∃ x, i = .ldStVx x) :
      ExecEffect s i { s with st := Timer.setTime v s.now, pc := pc }
  /-- The key wait begins or goes on, and the pc is held (R40, R146). -/
  | keyWait (hi : ∃ x, i = .ldVxK x) : ExecEffect s i { s with waiting := true }
  /-- The key wait ends and the latch is emptied (R40). -/
  | keyTaken {u : State} (pc : Word) (hu : RegsWritten s i u) (hi : ∃ x, i = .ldVxK x) :
      ExecEffect s i { u with waiting := false, latch := none, pc := pc }

namespace ExecEffect

variable {s t u : State} {i : Instr}

theorem of_next (hu : ExecEffect s i u) (h : (.next u : Host.Outcome State Fault Refusal) = .next t) :
    ExecEffect s i t := by
  cases h; exact hu

/-- An instruction that writes one general register. -/
theorem of_setV {x : RegIdx} {b : Byte} {c : Control} (hx : MayWriteReg i x)
    (h : (.next ((s.setV x b).advance c) : Host.Outcome State Fault Refusal) = .next t) :
    ExecEffect s i t :=
  of_next (.registers c (.of_setV s b hx)) h

/-- An instruction that writes the pc alone. -/
theorem of_advance {c : Control} (h : (.next (s.advance c) : Host.Outcome State Fault Refusal) = .next t) :
    ExecEffect s i t :=
  of_next (.registers c (.refl s i)) h

/-- An instruction that writes a result and then its flag. -/
theorem of_flagLast {x : RegIdx} {r f : Byte} {c : Control} (hx : MayWriteReg i x) (hf : MayWriteReg i VF)
    (h : (.next ((s.writeResultAndFlag x r f .flagLast).advance c) : Host.Outcome State Fault Refusal) =
      .next t) : ExecEffect s i t :=
  of_next (.registers c ((RegsWritten.of_setV s r hx).setV f hf)) h

/-- An instruction that stores a block. -/
theorem of_memWrite {a : Word} {bs : List Byte} {c : Control} (hbs : bs ≠ [])
    (hi : (∃ x, i = .ldBVx x) ∨ ∃ x, i = .storeRegs x)
    (h : finish (s.memWrite a bs) c = .next t) : ExecEffect s i t := by
  rcases s.memWrite_cases a bs hbs with ⟨hb, -, e⟩ | ⟨-, -, e⟩ | ⟨-, e⟩ <;> rw [e] at h
  · exact of_next (.memory a.toNat bs _ hb hi) h
  · cases h
  · cases h

theorem of_ret (h : exec .ret s = .next t) : ExecEffect s .ret t := by
  simp only [exec, execRet] at h
  rcases s.pop_cases with ⟨-, e⟩ | ⟨_, -, e⟩ <;> rw [e] at h
  · cases h
  · exact of_next (.stack s.stack _ _ (.inl rfl)) h

theorem of_call {nnn : Imm12} (h : exec (.call nnn) s = .next t) : ExecEffect s (.call nnn) t := by
  simp only [exec, execCall] at h
  rcases s.push_cases (s.pc + 2) with ⟨_, e⟩ | ⟨-, e⟩ <;> rw [e] at h
  · exact of_next (.stack _ _ _ (.inr ⟨nnn, rfl⟩)) h
  · cases h

theorem of_drw {x y : RegIdx} {n : BitVec 4} (h : exec (.drw x y n) s = .next t) :
    ExecEffect s (.drw x y n) t := by
  simp only [exec, execDrw] at h
  rcases s.memRead_cases s.i n.toNat with ⟨-, e⟩ | ⟨-, e⟩ <;> rw [e] at h
  · exact of_next (.display _ _ (.of_setV s _ rfl) (.inr ⟨x, y, n, rfl⟩)) h
  · cases h

theorem of_loadRegs {x : RegIdx} (h : exec (.loadRegs x) s = .next t) :
    ExecEffect s (.loadRegs x) t := by
  simp only [exec, execLoadRegs] at h
  rcases s.memRead_cases s.i (x.toNat + 1) with ⟨-, e⟩ | ⟨-, e⟩ <;> rw [e] at h
  · exact of_next (.registers _ (.of_setVs s x (Memory.length_readBlock _ _ _))) h
  · cases h

theorem of_skp {x : RegIdx} (h : exec (.skp x) s = .next t) : ExecEffect s (.skp x) t := by
  simp only [exec, execSkp] at h
  rcases keyOf_cases (s.v x) with ⟨k, e, -⟩ | ⟨e, -⟩ <;> rw [e] at h
  · exact of_advance h
  · cases h

theorem of_sknp {x : RegIdx} (h : exec (.sknp x) s = .next t) : ExecEffect s (.sknp x) t := by
  simp only [exec, execSknp] at h
  rcases keyOf_cases (s.v x) with ⟨k, e, -⟩ | ⟨e, -⟩ <;> rw [e] at h
  · exact of_advance h
  · cases h

theorem of_ldFVx {x : RegIdx} (h : exec (.ldFVx x) s = .next t) : ExecEffect s (.ldFVx x) t := by
  simp only [exec, execLdFVx] at h
  rcases glyphAddress_cases (s.v x) with ⟨a, e, -⟩ | ⟨e, -⟩ <;> rw [e] at h
  · exact of_next (.index _ _ (.inr (.inr ⟨x, rfl⟩))) h
  · cases h

end ExecEffect

/-- Everything the key wait can do (R296): with no key taken it leaves the keyboard Waiting and holds the
pc (R146), and with a key latched it ends. -/
theorem exec_ldVxK_cases {s t : State} {x : RegIdx} (h : exec (.ldVxK x) s = .next t) :
    ((s.waiting = true → s.latch = none) ∧ t = { s with waiting := true }) ∨
    ∃ k, s.waiting = true ∧ s.latch = some k ∧
      t = { s.setV x (byteOfKey k) with waiting := false, latch := none, pc := s.pc + 2 } := by
  have ht : t = (s.takeKey x).advance .next := by cases h; rfl
  rcases s.takeKey_cases x with ⟨hw, e⟩ | ⟨hw, hl, e⟩ | ⟨k, hw, hl, e⟩ <;> rw [e] at ht
  · exact .inl ⟨by simp [hw], ht⟩
  · refine .inl ⟨fun _ => hl, ht.trans ?_⟩
    simp only [State.advance, State.nextPc, hw, if_true]
  · exact .inr ⟨k, hw, hl, ht⟩

theorem ExecEffect.of_ldVxK {s t : State} {x : RegIdx} (h : exec (.ldVxK x) s = .next t) :
    ExecEffect s (.ldVxK x) t := by
  rcases exec_ldVxK_cases h with ⟨-, rfl⟩ | ⟨k, -, -, rfl⟩
  · exact .keyWait ⟨x, rfl⟩
  · exact .keyTaken _ (.of_setV s _ rfl) ⟨x, rfl⟩

/-- What an instruction that answers a next state has done. -/
theorem exec_effect {s t : State} : ∀ {i : Instr}, exec i s = .next t → ExecEffect s i t
  | .cls, h => .of_next (.display _ _ (.refl s _) (.inl rfl)) h
  | .ret, h => .of_ret h
  | .sys _, h => .of_advance h
  | .jp _, h => .of_advance h
  | .call _, h => .of_call h
  | .seVxKk _ _, h => .of_advance h
  | .sneVxKk _ _, h => .of_advance h
  | .seVxVy _ _, h => .of_advance h
  | .sneVxVy _ _, h => .of_advance h
  | .ldVxKk _ _, h => .of_setV rfl h
  | .addVxKk _ _, h => .of_setV rfl h
  | .ldVxVy _ _, h => .of_setV rfl h
  | .orVxVy _ _, h => .of_setV rfl h
  | .andVxVy _ _, h => .of_setV rfl h
  | .xorVxVy _ _, h => .of_setV rfl h
  | .addVxVy _ _, h => .of_flagLast (.inl rfl) (.inr rfl) h
  | .sub _ _, h => .of_flagLast (.inl rfl) (.inr rfl) h
  | .subn _ _, h => .of_flagLast (.inl rfl) (.inr rfl) h
  | .shr _ _, h => .of_next (.registers _ (.of_shiftWrite s _ _ _ (.inl rfl) (.inr rfl))) h
  | .shl _ _, h => .of_next (.registers _ (.of_shiftWrite s _ _ _ (.inl rfl) (.inr rfl))) h
  | .ldI nnn, h => .of_next (.index _ _ (.inl ⟨nnn, rfl⟩)) h
  | .jpV0 _, h => .of_advance h
  | .rnd _ _, h => .of_setV rfl h
  | .drw _ _ _, h => .of_drw h
  | .skp _, h => .of_skp h
  | .sknp _, h => .of_sknp h
  | .ldVxDt _, h => .of_setV rfl h
  | .ldVxK _, h => .of_ldVxK h
  | .ldDtVx x, h => .of_next (.delayTimer _ _ ⟨x, rfl⟩) h
  | .ldStVx x, h => .of_next (.soundTimer _ _ ⟨x, rfl⟩) h
  | .addIVx x, h => .of_next (.index _ _ (.inr (.inl ⟨x, rfl⟩))) h
  | .ldFVx _, h => .of_ldFVx h
  | .ldBVx x, h => .of_memWrite (List.cons_ne_nil _ _) (.inl ⟨x, rfl⟩) h
  | .storeRegs x, h => .of_memWrite (List.ne_nil_of_length_pos (by simp)) (.inr ⟨x, rfl⟩) h
  | .loadRegs _, h => .of_loadRegs h

/-- Settles O58: each effect changes one piece of state, and for that piece it names the instructions that
have it; every other field of the next state is the old one. -/
theorem onlyTheNamedInstructionsWrite : Obligations.OnlyTheNamedInstructionsWrite := by
  unfold Obligations.OnlyTheNamedInstructionsWrite
  intro i s t h
  cases exec_effect h with
  | registers c hu =>
    obtain ⟨⟨regs, rfl⟩, hr⟩ := hu
    simpa using hr
  | index _ _ hi | stack _ _ _ hi | memory _ _ _ _ hi
  | delayTimer _ _ hi | soundTimer _ _ hi | keyWait hi =>
    simp [State.v, hi]
  | display _ _ hu hi | keyTaken _ hu hi =>
    obtain ⟨⟨regs, rfl⟩, hr⟩ := hu
    simpa [State.v, hi] using hr

/-! ### The invariant through a step (R56) -/

/-- The host's input keeps the invariant: the clock only advances, and an idle keyboard latches nothing. -/
theorem beginStep_inv {s : State} (hs : s.Inv) : s.beginStep.Inv :=
  { hs with
    latchOnlyWaiting := fun hw =>
      (Scope.beginStep_latch_of_idle (s := s) hw).trans (hs.latchOnlyWaiting hw)
    dtStarted := hs.dtStarted.trans s.beginStep_clock
    stStarted := hs.stStarted.trans s.beginStep_clock
    clockNonNegative := hs.clockNonNegative.trans s.beginStep_clock }

/-! Between the handler and the harvest an edge flag may be set, so the invariant speaks of the state
after the instruction once it is harvested. -/

theorem ldVxK_harvest_inv {s t : State} {x : RegIdx} (hs : s.Inv)
    (hd : decode s.wordAtPc = .ok (.ldVxK x)) (h : exec (.ldVxK x) s = .next t) : t.harvest.Inv := by
  rcases exec_ldVxK_cases h with ⟨-, rfl⟩ | ⟨k, -, -, rfl⟩
  · exact { hs with
      latchOnlyWaiting := nofun
      edgesClear := ⟨rfl, rfl⟩
      waitsOnKeyInstr := fun _ => ⟨x, hd⟩ }
  · exact { hs with
      latchOnlyWaiting := fun _ => rfl
      edgesClear := ⟨rfl, rfl⟩
      waitsOnKeyInstr := waitsOnKeyInstr_of_idle rfl }

/-- From an idle keyboard every instruction but the key wait keeps the invariant. -/
theorem ExecEffect.harvest_inv {s t : State} {i : Instr} (hs : s.Inv) (hidle : s.waiting = false)
    (hi : ¬ ∃ x, i = .ldVxK x) (he : ExecEffect s i t) : t.harvest.Inv := by
  have hedge {u : State} : u.harvest.mustDraw = false ∧ u.harvest.mustBeep = false := ⟨rfl, rfl⟩
  have hwait {u : State} (hu : u.waiting = s.waiting) : u.harvest.WaitsOnKeyInstr :=
    waitsOnKeyInstr_of_idle (hu.trans hidle)
  cases he with
  | registers c hu =>
    obtain ⟨⟨regs, rfl⟩, -⟩ := hu
    exact { hs with edgesClear := hedge, waitsOnKeyInstr := hwait rfl }
  | index | stack => exact { hs with edgesClear := hedge, waitsOnKeyInstr := hwait rfl }
  | display pixels pc hu =>
    obtain ⟨⟨regs, rfl⟩, -⟩ := hu
    exact { hs with edgesClear := hedge, waitsOnKeyInstr := hwait rfl }
  | memory a bs pc hb =>
    exact { hs with
      edgesClear := hedge
      waitsOnKeyInstr := hwait rfl
      memCanonical := Memory.writeBlock_wf _ _ _ hb hs.memCanonical }
  | delayTimer => exact { hs with edgesClear := hedge, waitsOnKeyInstr := hwait rfl, dtStarted := le_rfl }
  | soundTimer => exact { hs with edgesClear := hedge, waitsOnKeyInstr := hwait rfl, stStarted := le_rfl }
  | keyWait hk => exact absurd hk hi
  | keyTaken _ _ hk => exact absurd hk hi

/-- An instruction run where it lies at the pc keeps the invariant: while the keyboard waits that is the
key wait itself (R56 (d)). -/
theorem exec_harvest_inv {s t : State} {i : Instr} (hs : s.Inv) (hd : decode s.wordAtPc = .ok i)
    (h : exec i s = .next t) : t.harvest.Inv := by
  by_cases hi : ∃ x, i = .ldVxK x
  · obtain ⟨x, rfl⟩ := hi
    exact ldVxK_harvest_inv hs hd h
  · have hidle : s.waiting = false := by
      by_contra hw
      obtain ⟨x, hx⟩ := hs.waitsOnKeyInstr (Bool.eq_true_of_not_eq_false hw)
      exact hi ⟨x, Except.ok.inj (hd.symm.trans hx)⟩
    exact (exec_effect h).harvest_inv hs hidle hi

/-- The timer ticks keep the invariant (R56 (e)). -/
theorem endStep_inv {s : State} (hs : s.harvest.Inv) : s.endStep.Inv :=
  { hs with
    edgesClear := ⟨rfl, rfl⟩
    dtStarted := Timer.countdown_started _ _ _ hs.dtStarted
    stStarted := Timer.countdown_started _ _ _ hs.stStarted }

/-- Settles O6: the host's input, the instruction and the end of the step each keep the invariant. -/
theorem stepKeepsInvariant : Obligations.StepKeepsInvariant := by
  unfold Obligations.StepKeepsInvariant
  intro s t hs h
  obtain ⟨-, -, i, u, hd, hu, rfl⟩ := step_eq_next s t h
  exact endStep_inv (exec_harvest_inv (beginStep_inv hs) hd hu)

end Sys2Proof.Proofs.MachineState
end

section
/-! SUPPORT. The proofs of the family 20_memory.md: a word stored by STORE_REGS right after itself is
the word at the pc it leaves (R85, R379, D27). -/

open Sys2Proof Sys2Proof.Machine Sys2Proof.Statements

namespace Sys2Proof.Proofs.MachineMemory

/-- Where STORE_REGS completes, it has stored V0 to V[x] at I and updated the pc (R234). -/
theorem eq_of_exec_storeRegs {x : RegIdx} {s t : State} (h : exec (.storeRegs x) s = .next t) :
    t = { s with mem := Memory.writeBlock s.mem s.i.toNat (s.vUpTo x) }.advance .next := by
  have hne : s.vUpTo x ≠ [] := List.ne_nil_of_length_pos (by simp)
  obtain ⟨u, hu, rfl⟩ := (finish_eq_next_iff (s.memWrite s.i (s.vUpTo x)) .next t).1 h
  rcases s.memWrite_cases s.i (s.vUpTo x) hne with ⟨-, -, e⟩ | ⟨-, -, e⟩ | ⟨-, e⟩ <;> rw [e] at hu
  · cases hu; rfl
  · cases hu
  · cases hu

/-- Byte r of a stored block of registers is V[r]. -/
theorem read_writeBlock_vUpTo (s : State) (m : Memory) (a : Nat) {x r : RegIdx} (h : r.toNat ≤ x.toNat) :
    Memory.read (Memory.writeBlock m a (s.vUpTo x)) (a + r.toNat) = s.v r := by
  rw [Memory.read_writeBlock, if_pos (Nat.le_add_right _ _), Nat.add_sub_cancel_left,
    State.getD_vUpTo _ _ _ _ h]

/-- The pc moves by 2, without a wrap, to a word two above it. -/
theorem nextPc_eq_of_toNat {s : State} {a : Word} (hw : s.waiting = false)
    (ha : a.toNat = s.pc.toNat + 2) : s.nextPc .next = a := by
  simp only [State.nextPc, hw, Bool.false_eq_true, if_false]
  bv_omega

/-- Settles O13: the pc that STORE_REGS leaves is I, where the first two stored bytes are V0 and V1. -/
theorem storedWordIsFetchedNext : Obligations.StoredWordIsFetchedNext := by
  unfold Obligations.StoredWordIsFetchedNext
  intro x s t hx hw hi h
  obtain rfl := eq_of_exec_storeRegs h
  have hpc : State.nextPc { s with mem := Memory.writeBlock s.mem s.i.toNat (s.vUpTo x) } .next = s.i :=
    nextPc_eq_of_toNat hw hi
  have h0 := read_writeBlock_vUpTo s s.mem s.i.toNat (x := x) (r := 0) (Nat.zero_le _)
  have h1 := read_writeBlock_vUpTo s s.mem s.i.toNat (x := x) (r := 1) hx
  rw [State.wordAtPc, wordOfBytes_toNat, State.advance_mem, State.advance_pc, hpc]
  exact congrArg₂ (fun b c : Byte => b.toNat * 256 + c.toNat) h0 h1

end Sys2Proof.Proofs.MachineMemory
end

section
/-! SUPPORT. The proofs of the family 30_encoding.md: the fields of a word, decode and encode as inverses,
the rows of the opcode map, and the illegal words (R101 to R107). -/

open Sys2Proof Sys2Proof.Laws

namespace Sys2Proof.Proofs.Encoding

variable {w m : Word} {i : Instr}

/-! ### A word rebuilt from its fields (R101, R102) -/

theorem packA_of_fields {s : BitVec 4} (hs : fieldS w = s) : packA s (fieldNNN w) = w := by
  subst hs
  apply BitVec.eq_of_toNat_eq
  rw [packA_toNat, fieldS_toNat, fieldNNN_toNat]
  omega

theorem packXK_of_fields {s : BitVec 4} {kk : Byte} (hs : fieldS w = s) (hkk : fieldKK w = kk) :
    packXK s (fieldX w) kk = w := by
  subst hs hkk
  apply BitVec.eq_of_toNat_eq
  rw [packXK_toNat, fieldS_toNat, fieldX_toNat, fieldKK_toNat]
  omega

theorem packXYN_of_fields {s n : BitVec 4} (hs : fieldS w = s) (hn : fieldN w = n) :
    packXYN s (fieldX w) (fieldY w) n = w := by
  subst hs hn
  apply BitVec.eq_of_toNat_eq
  rw [packXYN_toNat, fieldS_toNat, fieldX_toNat, fieldY_toNat, fieldN_toNat]
  omega

/-- Settles O18: the masks are remainders and the shifts quotients by powers of two, and the overlaps are
arithmetic on those. -/
theorem wordFieldsAreTheSourcesArithmetic : Obligations.WordFieldsAreTheSourcesArithmetic := by
  unfold Obligations.WordFieldsAreTheSourcesArithmetic
  refine ⟨fun w => ?_, by decide⟩
  have mask4 (a : Nat) : a &&& 0xF = a % 16 := Nat.and_two_pow_sub_one_eq_mod a 4
  have mask8 (a : Nat) : a &&& 0xFF = a % 256 := Nat.and_two_pow_sub_one_eq_mod a 8
  have mask12 (a : Nat) : a &&& 0xFFF = a % 4096 := Nat.and_two_pow_sub_one_eq_mod a 12
  rw [fieldS_toNat, fieldX_toNat, fieldY_toNat, fieldN_toNat, fieldKK_toNat, fieldNNN_toNat,
    mask4, mask4, mask4, mask8, mask12, Nat.shiftRight_eq_div_pow, Nat.shiftRight_eq_div_pow,
    Nat.shiftRight_eq_div_pow]
  omega

/-! ### decode after encode -/

/-- A word of format A is one of the two fixed words only with that word's operand (R107). -/
theorem packA_zero_eq_iff (nnn a : Imm12) : packA 0x0 nnn = packA 0x0 a ↔ nnn = a :=
  ⟨fun h => by rw [← fieldNNN_packA 0x0 nnn, h, fieldNNN_packA], fun h => h ▸ rfl⟩

theorem decode_sys {nnn : Imm12} (hcls : nnn ≠ 0x0E0) (hret : nnn ≠ 0x0EE) :
    decode (packA 0x0 nnn) = .ok (.sys nnn) := by
  have hE0 : packA 0x0 nnn ≠ 0x00E0#16 := mt (packA_zero_eq_iff nnn 0x0E0).1 hcls
  have hEE : packA 0x0 nnn ≠ 0x00EE#16 := mt (packA_zero_eq_iff nnn 0x0EE).1 hret
  rw [decode, fieldS_packA]
  change decode0 _ = _
  rw [decode0, if_neg hE0, if_neg hEE, fieldNNN_packA]

theorem decode_encode (hi : i.wellFormed = true) : decode (encode i) = .ok i := by
  cases i with
  | cls | ret => rfl
  | sys nnn =>
    obtain ⟨hcls, hret⟩ := of_decide_eq_true hi
    exact decode_sys hcls hret
  | jp | call | ldI | jpV0 | seVxKk | sneVxKk | ldVxKk | addVxKk | rnd | seVxVy | sneVxVy | drw =>
    simp [encode, decode]
  | ldVxVy | orVxVy | andVxVy | xorVxVy | addVxVy | sub | shr | subn | shl =>
    simp [encode, decode, decode8]
  | skp | sknp => simp [encode, decode, decodeE]
  | ldVxDt | ldVxK | ldDtVx | ldStVx | addIVx | ldFVx | ldBVx | storeRegs | loadRegs =>
    simp [encode, decode, decodeF]

/-- Settles O14: a packed word has the fields it was packed from, and only SYS shares words with other
rows. -/
theorem decodeOfEncodeIsTheInstruction : Obligations.DecodeOfEncodeIsTheInstruction := by
  unfold Obligations.DecodeOfEncodeIsTheInstruction
  exact fun _ hi => decode_encode hi

/-! ### encode after decode -/

theorem encode_of_decode0 (hs : fieldS w = 0x0) (h : decode0 w = .ok i) :
    i.wellFormed = true ∧ encode i = w := by
  have hw : packA 0x0 (fieldNNN w) = w := packA_of_fields hs
  unfold decode0 at h
  split_ifs at h with hE0 hEE <;> cases h
  · exact ⟨rfl, hE0.symm⟩
  · exact ⟨rfl, hEE.symm⟩
  · refine ⟨decide_eq_true ⟨fun e => hE0 ?_, fun e => hEE ?_⟩, hw⟩
    · rw [← hw, e]; rfl
    · rw [← hw, e]; rfl

theorem encode_of_decode8 (hs : fieldS w = 0x8) (h : decode8 w = .ok i) :
    i.wellFormed = true ∧ encode i = w := by
  unfold decode8 at h
  split at h <;> cases h <;> exact ⟨rfl, packXYN_of_fields hs ‹_›⟩

theorem encode_of_decodeE (hs : fieldS w = 0xE) (h : decodeE w = .ok i) :
    i.wellFormed = true ∧ encode i = w := by
  unfold decodeE at h
  split at h <;> cases h <;> exact ⟨rfl, packXK_of_fields hs ‹_›⟩

theorem encode_of_decodeF (hs : fieldS w = 0xF) (h : decodeF w = .ok i) :
    i.wellFormed = true ∧ encode i = w := by
  unfold decodeF at h
  split at h <;> cases h <;> exact ⟨rfl, packXK_of_fields hs ‹_›⟩

/-- The split's case `h_(c+1)` is the class `c` of the word, and `h_17` the match's catch-all. -/
theorem encode_of_decode (h : decode w = .ok i) : i.wellFormed = true ∧ encode i = w := by
  unfold decode at h
  split at h
  case h_1 hs => exact encode_of_decode0 hs h
  case h_9 hs => exact encode_of_decode8 hs h
  case h_15 hs => exact encode_of_decodeE hs h
  case h_16 hs => exact encode_of_decodeF hs h
  case h_6 hs | h_10 hs =>
    split_ifs at h with hn
    cases h
    exact ⟨rfl, packXYN_of_fields hs hn⟩
  case h_2 hs | h_3 hs | h_11 hs | h_12 hs => cases h; exact ⟨rfl, packA_of_fields hs⟩
  case h_4 hs | h_5 hs | h_7 hs | h_8 hs | h_13 hs => cases h; exact ⟨rfl, packXK_of_fields hs rfl⟩
  case h_14 hs => cases h; exact ⟨rfl, packXYN_of_fields hs rfl⟩
  case h_17 => cases h

/-- Settles O15: in every class of the decoder the fields it reads, packed again, are the word. -/
theorem encodeOfDecodeIsTheWord : Obligations.EncodeOfDecodeIsTheWord := by
  unfold Obligations.EncodeOfDecodeIsTheWord
  exact fun _ _ h => encode_of_decode h

/-! ### The rows of the opcode map (R105) -/

/-- The encoding of every instruction matches its row: the laws of RowBits, put together. -/
theorem encode_matchesRow : ∀ i : Instr, encode i &&& rowMask i = rowMatch i
  | .cls => RowBits.cls | .ret => RowBits.ret | .sys a => RowBits.sys a | .jp a => RowBits.jp a
  | .call a => RowBits.call a | .ldI a => RowBits.ldI a | .jpV0 a => RowBits.jpV0 a
  | .seVxKk x k => RowBits.seVxKk x k | .sneVxKk x k => RowBits.sneVxKk x k
  | .ldVxKk x k => RowBits.ldVxKk x k | .addVxKk x k => RowBits.addVxKk x k | .rnd x k => RowBits.rnd x k
  | .seVxVy x y => RowBits.seVxVy x y | .sneVxVy x y => RowBits.sneVxVy x y
  | .ldVxVy x y => RowBits.ldVxVy x y | .orVxVy x y => RowBits.orVxVy x y
  | .andVxVy x y => RowBits.andVxVy x y | .xorVxVy x y => RowBits.xorVxVy x y
  | .addVxVy x y => RowBits.addVxVy x y | .sub x y => RowBits.sub x y | .shr x y => RowBits.shr x y
  | .subn x y => RowBits.subn x y | .shl x y => RowBits.shl x y | .drw x y n => RowBits.drw x y n
  | .skp x => RowBits.skp x | .sknp x => RowBits.sknp x | .ldVxDt x => RowBits.ldVxDt x
  | .ldVxK x => RowBits.ldVxK x | .ldDtVx x => RowBits.ldDtVx x | .ldStVx x => RowBits.ldStVx x
  | .addIVx x => RowBits.addIVx x | .ldFVx x => RowBits.ldFVx x | .ldBVx x => RowBits.ldBVx x
  | .storeRegs x => RowBits.storeRegs x | .loadRegs x => RowBits.loadRegs x

/-! A word that has a row's fixed bits under the row's mask is packed from them and its own operands. -/

theorem eq_of_and_FFFF (h : w &&& 0xFFFF#16 = m) : m = w := by
  rw [← h]
  exact BitVec.and_allOnes

theorem fieldS_of_and_F000 {s : BitVec 4} (h : w &&& 0xF000#16 = BitVec.ofNat 16 (s.toNat * 4096)) :
    fieldS w = s := by
  have hbits := congrArg BitVec.toNat h
  rw [and_F000_toNat, BitVec.toNat_ofNat] at hbits
  apply BitVec.eq_of_toNat_eq
  rw [fieldS_toNat]
  omega

theorem packA_of_and {s : BitVec 4} (h : w &&& 0xF000#16 = BitVec.ofNat 16 (s.toNat * 4096)) :
    packA s (fieldNNN w) = w :=
  packA_of_fields (fieldS_of_and_F000 h)

theorem packXK_of_and {s : BitVec 4} (h : w &&& 0xF000#16 = BitVec.ofNat 16 (s.toNat * 4096)) :
    packXK s (fieldX w) (fieldKK w) = w :=
  packXK_of_fields (fieldS_of_and_F000 h) rfl

theorem packXYN_of_and {s : BitVec 4} (h : w &&& 0xF000#16 = BitVec.ofNat 16 (s.toNat * 4096)) :
    packXYN s (fieldX w) (fieldY w) (fieldN w) = w :=
  packXYN_of_fields (fieldS_of_and_F000 h) rfl

theorem packXYF_of_and {s n : BitVec 4}
    (h : w &&& 0xF00F#16 = BitVec.ofNat 16 (s.toNat * 4096 + n.toNat)) :
    packXYN s (fieldX w) (fieldY w) n = w := by
  have hbits := congrArg BitVec.toNat h
  rw [and_F00F_toNat, BitVec.toNat_ofNat] at hbits
  apply packXYN_of_fields <;> apply BitVec.eq_of_toNat_eq
  · rw [fieldS_toNat]; omega
  · rw [fieldN_toNat]; omega

theorem packXF_of_and {s : BitVec 4} {kk : Byte}
    (h : w &&& 0xF0FF#16 = BitVec.ofNat 16 (s.toNat * 4096 + kk.toNat)) :
    packXK s (fieldX w) kk = w := by
  have hbits := congrArg BitVec.toNat h
  rw [and_F0FF_toNat, BitVec.toNat_ofNat] at hbits
  apply packXK_of_fields <;> apply BitVec.eq_of_toNat_eq
  · rw [fieldS_toNat]; omega
  · rw [fieldKK_toNat]; omega

/-- A word that matches the row of `i` is the encoding of a term of that row, whose operands are fields of
the word. -/
theorem exists_encode_of_matchesRow : ∀ {i : Instr}, w &&& rowMask i = rowMatch i →
    ∃ j, encode j = w ∧ rowMask j = rowMask i ∧ rowMatch j = rowMatch i
  | .cls, h => ⟨.cls, eq_of_and_FFFF h, rfl, rfl⟩
  | .ret, h => ⟨.ret, eq_of_and_FFFF h, rfl, rfl⟩
  | .sys _, h => ⟨.sys _, packA_of_and h, rfl, rfl⟩
  | .jp _, h => ⟨.jp _, packA_of_and h, rfl, rfl⟩
  | .call _, h => ⟨.call _, packA_of_and h, rfl, rfl⟩
  | .ldI _, h => ⟨.ldI _, packA_of_and h, rfl, rfl⟩
  | .jpV0 _, h => ⟨.jpV0 _, packA_of_and h, rfl, rfl⟩
  | .seVxKk _ _, h => ⟨.seVxKk _ _, packXK_of_and h, rfl, rfl⟩
  | .sneVxKk _ _, h => ⟨.sneVxKk _ _, packXK_of_and h, rfl, rfl⟩
  | .ldVxKk _ _, h => ⟨.ldVxKk _ _, packXK_of_and h, rfl, rfl⟩
  | .addVxKk _ _, h => ⟨.addVxKk _ _, packXK_of_and h, rfl, rfl⟩
  | .rnd _ _, h => ⟨.rnd _ _, packXK_of_and h, rfl, rfl⟩
  | .drw _ _ _, h => ⟨.drw _ _ _, packXYN_of_and h, rfl, rfl⟩
  | .seVxVy _ _, h => ⟨.seVxVy _ _, packXYF_of_and h, rfl, rfl⟩
  | .sneVxVy _ _, h => ⟨.sneVxVy _ _, packXYF_of_and h, rfl, rfl⟩
  | .ldVxVy _ _, h => ⟨.ldVxVy _ _, packXYF_of_and h, rfl, rfl⟩
  | .orVxVy _ _, h => ⟨.orVxVy _ _, packXYF_of_and h, rfl, rfl⟩
  | .andVxVy _ _, h => ⟨.andVxVy _ _, packXYF_of_and h, rfl, rfl⟩
  | .xorVxVy _ _, h => ⟨.xorVxVy _ _, packXYF_of_and h, rfl, rfl⟩
  | .addVxVy _ _, h => ⟨.addVxVy _ _, packXYF_of_and h, rfl, rfl⟩
  | .sub _ _, h => ⟨.sub _ _, packXYF_of_and h, rfl, rfl⟩
  | .shr _ _, h => ⟨.shr _ _, packXYF_of_and h, rfl, rfl⟩
  | .subn _ _, h => ⟨.subn _ _, packXYF_of_and h, rfl, rfl⟩
  | .shl _ _, h => ⟨.shl _ _, packXYF_of_and h, rfl, rfl⟩
  | .skp _, h => ⟨.skp _, packXF_of_and h, rfl, rfl⟩
  | .sknp _, h => ⟨.sknp _, packXF_of_and h, rfl, rfl⟩
  | .ldVxDt _, h => ⟨.ldVxDt _, packXF_of_and h, rfl, rfl⟩
  | .ldVxK _, h => ⟨.ldVxK _, packXF_of_and h, rfl, rfl⟩
  | .ldDtVx _, h => ⟨.ldDtVx _, packXF_of_and h, rfl, rfl⟩
  | .ldStVx _, h => ⟨.ldStVx _, packXF_of_and h, rfl, rfl⟩
  | .addIVx _, h => ⟨.addIVx _, packXF_of_and h, rfl, rfl⟩
  | .ldFVx _, h => ⟨.ldFVx _, packXF_of_and h, rfl, rfl⟩
  | .ldBVx _, h => ⟨.ldBVx _, packXF_of_and h, rfl, rfl⟩
  | .storeRegs _, h => ⟨.storeRegs _, packXF_of_and h, rfl, rfl⟩
  | .loadRegs _, h => ⟨.loadRegs _, packXF_of_and h, rfl, rfl⟩

/-- The two terms that name no instruction carry the words of CLS and RET (R107). -/
theorem eq_sys_of_not_wellFormed (h : ¬ i.wellFormed = true) : i = .sys 0x0E0 ∨ i = .sys 0x0EE := by
  cases i with
  | sys nnn =>
    simp only [Instr.wellFormed, decide_eq_true_eq, not_and_or, not_not] at h
    exact h.imp (congrArg Instr.sys) (congrArg Instr.sys)
  | _ => exact absurd rfl h

/-- Settles O16: a word matches exactly the rows that encode to it, and among them it decodes to the
well-formed one; SYS with the operand of a fixed word is the one that is not. -/
theorem opcodeMapSelectsTheRow : Obligations.OpcodeMapSelectsTheRow := by
  unfold Obligations.OpcodeMapSelectsTheRow
  refine fun w => ⟨fun j hj => ?_, fun i hi => ?_⟩
  · obtain ⟨-, rfl⟩ := encode_of_decode hj
    exact encode_matchesRow j
  · obtain ⟨j, rfl, hmask, hmatch⟩ := exists_encode_of_matchesRow hi
    by_cases hwf : j.wellFormed = true
    · exact ⟨j, decode_encode hwf, .inl ⟨hmask, hmatch⟩⟩
    · obtain rfl | rfl := eq_sys_of_not_wellFormed hwf
      · exact ⟨.cls, by decide, .inr ⟨hmatch.symm, .inl rfl⟩⟩
      · exact ⟨.ret, by decide, .inr ⟨hmatch.symm, .inr rfl⟩⟩

/-! ### The illegal words (R106) -/

/-! What each class rejects; a nibble or byte that meets none of a match's patterns is one of the others. -/

theorem decode0_ne_error (w : Word) (e : DecodeReject) : decode0 w ≠ .error e := by
  unfold decode0
  split_ifs <;> exact nofun

theorem decode8_error_iff (w : Word) :
    (∃ e, decode8 w = .error e) ↔ 8 ≤ (fieldN w).toNat ∧ (fieldN w).toNat ≠ 14 := by
  unfold decode8
  split
  case h_10 =>
    simp only [imp_false] at *
    exact iff_of_true ⟨_, rfl⟩ (by bv_omega)
  all_goals simp [*]

theorem decodeE_error_iff (w : Word) :
    (∃ e, decodeE w = .error e) ↔ fieldKK w ≠ 0x9E ∧ fieldKK w ≠ 0xA1 := by
  unfold decodeE
  split <;> simp_all

theorem decodeF_error_iff (w : Word) :
    (∃ e, decodeF w = .error e) ↔
      ¬ fieldKK w ∈ [0x07, 0x0A, 0x15, 0x18, 0x1E, 0x29, 0x33, 0x55, 0x65] := by
  unfold decodeF
  split <;> simp_all

/-- Settles O17: only the classes 5, 8, 9, E and F reject a word, and each rejects the ones R106 lists. -/
theorem illegalWordsAreExactlyTheFiveClasses : Obligations.IllegalWordsAreExactlyTheFiveClasses := by
  unfold Obligations.IllegalWordsAreExactlyTheFiveClasses
  intro w
  unfold decode
  split -- `h_(c+1)` is class `c`; the classes left to the end reject no word
  case h_1 hs => simp [hs, decode0_ne_error]
  case h_6 hs | h_10 hs => simp [hs, ite_eq_iff]
  case h_9 hs => simp [hs, decode8_error_iff]
  case h_15 hs => simp [hs, decodeE_error_iff]
  case h_16 hs => simp [hs, decodeF_error_iff]
  case h_17 =>
    simp only [imp_false] at *
    bv_omega
  all_goals simp [*]

end Sys2Proof.Proofs.Encoding
end

section
/-! SUPPORT. The proofs of the family 40_step_cycle.md: what a step answers in each case of its fetch, its
decode and its instruction, and what it leaves (R140 to R150); the faults an instruction can raise (R331);
and which instructions ask for a redraw (R262). -/

open Sys2Proof Sys2Proof.Machine Sys2Proof.Statements

namespace Sys2Proof.Proofs.StepCycle

variable {s t u : State} {i : Instr} {f : Fault}

/-! ### The faults of an instruction (R331) -/

/-- The faults that an instruction at `p` can raise: every kind of R331 but those of the fetch and the
decoder, and each records `p`. -/
inductive InstrFault (p : Word) : Fault → Prop
  | stackOverflow : InstrFault p (.stackOverflow p)
  | stackUnderflow : InstrFault p (.stackUnderflow p)
  | memOutOfBounds (a : Word) (n : Nat) : InstrFault p (.memOutOfBounds p a n)
  | fontDigitFault (b : Byte) : InstrFault p (.fontDigitFault p b)
  | keyIndexFault (b : Byte) : InstrFault p (.keyIndexFault p b)
  | fontWriteFault (a : Word) : InstrFault p (.fontWriteFault p a)

theorem instrFault_of_memWrite {a : Word} {bs : List Byte} {c : Control} (hbs : bs ≠ [])
    (h : finish (s.memWrite a bs) c = .fault f) : InstrFault s.pc f := by
  rcases s.memWrite_cases a bs hbs with ⟨-, -, e⟩ | ⟨-, -, e⟩ | ⟨-, e⟩ <;> rw [e] at h <;> cases h
  · exact .fontWriteFault _
  · exact .memOutOfBounds _ _

/-- What a fault of an instruction can be: nine instructions can fault, each by the operation or the
operand form that it checks before it changes anything. -/
theorem exec_fault (h : exec i s = .fault f) : InstrFault s.pc f := by
  cases i
  case ret =>
    simp only [exec, execRet] at h
    rcases s.pop_cases with ⟨-, e⟩ | ⟨_, -, e⟩ <;> rw [e] at h <;> cases h
    exact .stackUnderflow
  case call nnn =>
    simp only [exec, execCall] at h
    rcases s.push_cases (s.pc + 2) with ⟨_, e⟩ | ⟨-, e⟩ <;> rw [e] at h <;> cases h
    exact .stackOverflow
  case drw x y n =>
    simp only [exec, execDrw] at h
    rcases s.memRead_cases s.i n.toNat with ⟨-, e⟩ | ⟨-, e⟩ <;> rw [e] at h <;> cases h
    exact .memOutOfBounds _ _
  case loadRegs x =>
    simp only [exec, execLoadRegs] at h
    rcases s.memRead_cases s.i (x.toNat + 1) with ⟨-, e⟩ | ⟨-, e⟩ <;> rw [e] at h <;> cases h
    exact .memOutOfBounds _ _
  case ldBVx x => exact instrFault_of_memWrite (List.cons_ne_nil _ _) h
  case storeRegs x => exact instrFault_of_memWrite (List.ne_nil_of_length_pos (by simp)) h
  case skp x | sknp x =>
    simp only [exec, execSkp, execSknp] at h
    split at h <;> cases h
    exact .keyIndexFault _
  case ldFVx x =>
    simp only [exec, execLdFVx] at h
    split at h <;> cases h
    exact .fontDigitFault _
  all_goals cases h

/-! ### What a step answers and leaves -/

theorem step_of_running (hs : s.status = .running) : step s = runPhases s.beginStep := by
  rw [step, hs]

theorem step_of_faulted (hs : s.status = .faulted f) : step s = .fault f := by
  rw [step, hs]

theorem after_of_fault (hs : s.status = .running) (h : step s = .fault f) :
    s.after = s.beginStep.record f := by
  simp only [State.after, h, hs]

theorem after_of_faulted (hs : s.status = .faulted f) : s.after = s := by
  simp only [State.after, step_of_faulted hs, hs]

/-- The host's input moves nothing that the fetch reads, so a step fetches the word at the pc. -/
theorem beginStep_fetch_of_lt (hb : s.pc.toNat + 1 < s.config.fetchLimit.bound) :
    s.beginStep.fetch = .ok s.wordAtPc := by
  rcases s.beginStep.fetch_cases with ⟨-, e⟩ | ⟨h, -⟩
  · exact e
  · exact absurd hb (Nat.not_lt.2 h)

theorem beginStep_fetch_of_le (hb : s.config.fetchLimit.bound ≤ s.pc.toNat + 1) :
    s.beginStep.fetch = .error (.fetchOutOfBounds s.pc) := by
  rcases s.beginStep.fetch_cases with ⟨h, -⟩ | ⟨-, e⟩
  · exact absurd hb (Nat.not_le.2 h)
  · exact e

theorem step_of_fetchOutOfBounds (hs : s.status = .running)
    (hb : s.config.fetchLimit.bound ≤ s.pc.toNat + 1) : step s = .fault (.fetchOutOfBounds s.pc) := by
  simp only [step_of_running hs, runPhases, beginStep_fetch_of_le hb, raise]

section InBounds

variable (hs : s.status = .running) (hb : s.pc.toNat + 1 < s.config.fetchLimit.bound)
include hs hb

theorem step_of_illegal {e : DecodeReject} (hd : decode s.wordAtPc = .error e) :
    step s = .fault (.decodeFault s.pc s.wordAtPc) := by
  simp only [step_of_running hs, runPhases, beginStep_fetch_of_lt hb, hd, raise, State.beginStep_pc]

theorem step_of_exec_next (hd : decode s.wordAtPc = .ok i) (hu : exec i s.beginStep = .next u) :
    step s = .next u.endStep := by
  simp only [step_of_running hs, runPhases, beginStep_fetch_of_lt hb, hd, hu]

theorem step_of_exec_fault (hd : decode s.wordAtPc = .ok i) (hf : exec i s.beginStep = .fault f) :
    step s = .fault f := by
  simp only [step_of_running hs, runPhases, beginStep_fetch_of_lt hb, hd, hf]

end InBounds

/-- A Running core on a legal word can fault only in the fetch or in its instruction, and neither raises a
decode fault. -/
theorem step_ne_decodeFault (hs : s.status = .running) (hd : decode s.wordAtPc = .ok i) (p w : Word) :
    step s ≠ .fault (.decodeFault p w) := by
  intro h
  rcases step_eq_fault s _ h with hf | ⟨-, ⟨-, hf⟩ | ⟨-, ⟨e, he, -⟩ | ⟨j, -, hj⟩⟩⟩
  · cases hs.symm.trans hf
  · cases hf
  · cases hd.symm.trans he
  · cases exec_fault hj

/-- Settles O7: the fetch reads at the pc and in the memory that the host's input left as they were. -/
theorem fetchReadsBigEndianOrFaults : Obligations.FetchReadsBigEndianOrFaults := by
  unfold Obligations.FetchReadsBigEndianOrFaults
  exact fun s hs => ⟨MachineState.fetch_toNat (s := s.beginStep), step_of_fetchOutOfBounds hs⟩

/-- Settles O8: only the decoder raises a decode fault; no instruction does. -/
theorem illegalWordFaults : Obligations.IllegalWordFaults := by
  unfold Obligations.IllegalWordFaults
  exact fun s hs hb => ⟨fun ⟨_, hd⟩ => step_of_illegal hs hb hd, fun ⟨_, hd⟩ => step_ne_decodeFault hs hd⟩

/-- Settles O9: one case for each way out of a step, and each fault leaves its record alone. -/
theorem stepRunsDecodedInstruction : Obligations.StepRunsDecodedInstruction := by
  unfold Obligations.StepRunsDecodedInstruction
  intro s hs
  have faulted {f : Fault} (h : step s = .fault f) :
      step s = .fault f ∧ s.after = { s.beginStep with status := .faulted f } :=
    ⟨h, after_of_fault hs h⟩
  refine ⟨fun hb => faulted (step_of_fetchOutOfBounds hs hb), fun hb => ⟨fun e hd => ?_, fun i hd => ?_⟩⟩
  · exact faulted (step_of_illegal hs hb hd)
  · exact ⟨fun u hu => step_of_exec_next hs hb hd hu,
      fun f hf => faulted (step_of_exec_fault hs hb hd hf)⟩

/-- Settles O10: the step returns the record it finds in the status, and no phase runs. -/
theorem faultedCoreStaysFaulted : Obligations.FaultedCoreStaysFaulted := by
  unfold Obligations.FaultedCoreStaysFaulted
  exact fun s f hs => ⟨step_of_faulted hs, after_of_faulted hs⟩

/-! ### The redraw output (R148, R262) -/

theorem endStep_redraw (s : State) : s.endStep.out.redraw = s.mustDraw := rfl

theorem mustDraw_of_exec_cls (h : exec .cls s = .next t) : t.mustDraw = true := by
  cases h; rfl

/-- DRW asks for a redraw whatever it draws, n = 0 included (D20). -/
theorem mustDraw_of_exec_drw {x y : RegIdx} {n : BitVec 4} (h : exec (.drw x y n) s = .next t) :
    t.mustDraw = true := by
  simp only [exec, execDrw] at h
  rcases s.memRead_cases s.i n.toNat with ⟨-, e⟩ | ⟨-, e⟩ <;> rw [e] at h <;> cases h
  rfl

/-- From a clear flag, the instructions that may write must_draw are those that set it. -/
theorem mustDraw_iff_of_exec (hs : s.mustDraw = false) (h : exec i s = .next t) :
    t.mustDraw = true ↔ i = .cls ∨ ∃ x y n, i = .drw x y n := by
  constructor
  · intro ht
    obtain ⟨-, -, -, hdisplay, -⟩ := MachineState.onlyTheNamedInstructionsWrite i s t h
    exact hdisplay (.inr (by simp [ht, hs]))
  · rintro (rfl | ⟨x, y, n, rfl⟩)
    · exact mustDraw_of_exec_cls h
    · exact mustDraw_of_exec_drw h

/-- Settles O47: the redraw output is must_draw as the instruction left it, and the host's input leaves
the flag clear. -/
theorem redrawExactlyOnClsOrDrw : Obligations.RedrawExactlyOnClsOrDrw := by
  unfold Obligations.RedrawExactlyOnClsOrDrw
  intro s t hs h
  obtain ⟨-, -, i, u, hd, hu, rfl⟩ := step_eq_next s t h
  simpa only [hd, Except.ok.injEq, endStep_redraw] using
    mustDraw_iff_of_exec (s := s.beginStep) hs hu

end Sys2Proof.Proofs.StepCycle
end

section
/-! SUPPORT. The proofs of the family 41_control_flow.md: the no-op, the jumps, the return stack and the
skips on registers (R170 to R180). -/

open Sys2Proof Sys2Proof.Machine Sys2Proof.Statements Sys2Proof.Proofs.Encoding

namespace Sys2Proof.Proofs.ControlFlow

variable {s : State}

/-! ### The instructions that write the pc alone

Each answers `s.advance c` for its verdict `c`, and `advance` writes the pc alone. -/

theorem exec_sys (nnn : Imm12) (s : State) : exec (.sys nnn) s = .next (s.advance .next) := rfl

theorem exec_jp (nnn : Imm12) (s : State) :
    exec (.jp nnn) s = .next (s.advance (.jump (addrOf nnn))) := rfl

theorem exec_jpV0 (nnn : Imm12) (s : State) :
    exec (.jpV0 nnn) s = .next (s.advance (.jump (addrOf nnn + zext16 (s.v 0)))) := rfl

theorem exec_seVxKk (x : RegIdx) (kk : Byte) (s : State) :
    exec (.seVxKk x kk) s = .next (s.advance (skipIf (s.v x == kk))) := rfl

theorem exec_sneVxKk (x : RegIdx) (kk : Byte) (s : State) :
    exec (.sneVxKk x kk) s = .next (s.advance (skipIf (s.v x != kk))) := rfl

theorem exec_seVxVy (x y : RegIdx) (s : State) :
    exec (.seVxVy x y) s = .next (s.advance (skipIf (s.v x == s.v y))) := rfl

theorem exec_sneVxVy (x y : RegIdx) (s : State) :
    exec (.sneVxVy x y) s = .next (s.advance (skipIf (s.v x != s.v y))) := rfl

/-! ### What a verdict gives the pc (R146) -/

theorem nextPc_next (s : State) : s.nextPc .next = pcAfterNext s := rfl

/-- A skip's Boolean test stands for its condition. -/
theorem nextPc_skipIf {b : Bool} {p : Prop} [Decidable p] (h : b = true ↔ p) :
    s.nextPc (skipIf b) = pcAfterSkip s p := by
  unfold pcAfterSkip skipIf
  by_cases hp : p
  · rw [if_pos hp, if_pos (h.2 hp)]; rfl
  · rw [if_neg hp, if_neg (mt h.1 hp)]; rfl

/-- nnn plus a register value is below 2^16, so the sum of JP V0 does not wrap (R180). -/
theorem addrOf_add_zext16_toNat (nnn : Imm12) (b : Byte) :
    (addrOf nnn + zext16 b).toNat = nnn.toNat + b.toNat := by
  have hnnn := nnn.isLt
  have hb := b.isLt
  rw [BitVec.toNat_add, addrOf_toNat, zext16_toNat]
  omega

/-! ### CALL and RET (R170, R171, R173, R175) -/

theorem exec_call (nnn : Imm12) (h : s.sp.val < 16) :
    exec (.call nnn) s = .next { s with
      pc := addrOf nnn
      stack := s.stack.set s.sp.val (s.pc + 2) h
      sp := ⟨s.sp.val + 1, by omega⟩ } := by
  rw [exec, execCall]
  rcases s.push_cases (s.pc + 2) with ⟨_, e⟩ | ⟨hfull, -⟩
  · rw [e, finish_ok]; rfl
  · omega

theorem exec_call_of_full (nnn : Imm12) (h : s.sp.val = 16) :
    exec (.call nnn) s = .fault (.stackOverflow s.pc) := by
  rw [exec, execCall]
  rcases s.push_cases (s.pc + 2) with ⟨_, -⟩ | ⟨-, e⟩
  · omega
  · rw [e, finish_error]

/-- RET with `k + 1` entries in use returns to the entry at `k`. -/
theorem exec_ret {k : Nat} (hk : k < 16) (h : s.sp.val = k + 1) :
    exec .ret s = .next { s with pc := s.stack[k], sp := ⟨k, by omega⟩ } := by
  rw [exec, execRet]
  rcases s.pop_cases with ⟨hempty, -⟩ | ⟨_, -, e⟩
  · omega
  · simp only [e, h, Nat.add_sub_cancel]; rfl

theorem exec_ret_of_empty (h : s.sp.val = 0) : exec .ret s = .fault (.stackUnderflow s.pc) := by
  rw [exec, execRet]
  rcases s.pop_cases with ⟨-, e⟩ | ⟨_, hne, -⟩
  · rw [e]; rfl
  · exact absurd h hne

/-! ### The obligations -/

/-- Settles O20: the verdict of SYS is Next, and only the operands of CLS and RET are not its own. -/
theorem sysIsANoOp : Obligations.SysIsANoOp := by
  unfold Obligations.SysIsANoOp
  exact ⟨fun _ hcls hret => decode_sys hcls hret,
    fun nnn s => ⟨_, exec_sys nnn s, nextPc_next s, rfl⟩⟩

/-- Settles O21: with SP = k + 1 the entry that RET pops is the one at k. -/
theorem retPopsThePc : Obligations.RetPopsThePc := by
  unfold Obligations.RetPopsThePc
  refine ⟨decode_encode (i := .ret) rfl, fun s => ⟨exec_ret_of_empty, fun hpos => ?_⟩⟩
  have hk : s.sp.val - 1 < 16 := by have := s.sp.isLt; omega
  have hsp : s.sp.val = (s.sp.val - 1) + 1 := by omega
  exact ⟨_, exec_ret hk hsp, fun _ => rfl, rfl, rfl⟩

/-- Settles O22: the verdict of JP is a jump to its operand, zero-extended. -/
theorem jpSetsThePc : Obligations.JpSetsThePc := by
  unfold Obligations.JpSetsThePc
  exact fun nnn s =>
    ⟨decode_encode (i := .jp nnn) rfl, _, exec_jp nnn s, addrOf_toNat nnn, rfl⟩

/-- Settles O23: Push tests the depth and then writes the one entry at SP. -/
theorem callPushesTheReturnAddress : Obligations.CallPushesTheReturnAddress := by
  unfold Obligations.CallPushesTheReturnAddress
  exact fun nnn s => ⟨exec_call_of_full nnn, fun h =>
    ⟨_, exec_call nnn h, addrOf_toNat nnn, rfl, Vector.getElem_set_self h,
      fun k hk hne => Vector.getElem_set_ne h hk hne.symm, rfl⟩⟩

/-- Settles O24: the entry at SP that CALL writes is the one that RET, at SP + 1, pops. -/
theorem callThenRetReturns : Obligations.CallThenRetReturns := by
  unfold Obligations.CallThenRetReturns
  exact fun nnn s h =>
    ⟨_, _, exec_call nnn h, exec_ret h rfl, Vector.getElem_set_self h, rfl,
      fun k hk hne => Vector.getElem_set_ne h hk hne.symm, rfl⟩

/-- Settles O25: the verdict is Skip exactly on the instruction's condition, and a verdict moves the pc
alone. -/
theorem skipsOnImmediate : Obligations.SkipsOnImmediate := by
  unfold Obligations.SkipsOnImmediate
  exact fun x kk s =>
    ⟨decode_encode (i := .seVxKk x kk) rfl, decode_encode (i := .sneVxKk x kk) rfl,
      ⟨_, exec_seVxKk x kk s, nextPc_skipIf beq_iff_eq, rfl⟩,
      ⟨_, exec_sneVxKk x kk s, nextPc_skipIf bne_iff_ne, rfl⟩⟩

/-- Settles O26: as for an immediate; a register equals itself, which decides both skips at x = y. -/
theorem skipsOnRegisters : Obligations.SkipsOnRegisters := by
  unfold Obligations.SkipsOnRegisters
  intro x y s
  have hse : s.nextPc (skipIf (s.v x == s.v y)) = pcAfterSkip s (s.v x = s.v y) :=
    nextPc_skipIf beq_iff_eq
  have hsne : s.nextPc (skipIf (s.v x != s.v y)) = pcAfterSkip s (s.v x ≠ s.v y) :=
    nextPc_skipIf bne_iff_ne
  refine ⟨decode_encode (i := .seVxVy x y) rfl, decode_encode (i := .sneVxVy x y) rfl,
    ⟨_, exec_seVxVy x y s, hse, fun hxy => hse.trans ?_, rfl⟩,
    ⟨_, exec_sneVxVy x y s, hsne, fun hxy => hsne.trans ?_, rfl⟩⟩
  · exact if_pos (congrArg s.v hxy)
  · exact if_neg (not_not_intro (congrArg s.v hxy))

/-- Settles O27: the verdict of JP V0 is a jump to a sum that does not wrap. -/
theorem jpV0AddsV0 : Obligations.JpV0AddsV0 := by
  unfold Obligations.JpV0AddsV0
  exact fun nnn s =>
    ⟨decode_encode (i := .jpV0 nnn) rfl, _, exec_jpV0 nnn s, addrOf_add_zext16_toNat nnn (s.v 0), rfl⟩

end Sys2Proof.Proofs.ControlFlow
end

section
/-! SUPPORT. The proofs of the family 42_alu.md: the register loads, the arithmetic and logic
instructions, the shifts and RND (R200 to R213). -/

open Sys2Proof Sys2Proof.Machine Sys2Proof.Statements Sys2Proof.Proofs.Encoding

namespace Sys2Proof.Proofs.Alu

variable {s u : State}

/-! ### The instructions that write one register -/

theorem exec_ldVxKk (x : RegIdx) (kk : Byte) (s : State) :
    exec (.ldVxKk x kk) s = .next ((s.setV x kk).advance .next) := rfl

theorem exec_addVxKk (x : RegIdx) (kk : Byte) (s : State) :
    exec (.addVxKk x kk) s = .next ((s.setV x (s.v x + kk)).advance .next) := rfl

theorem exec_ldVxVy (x y : RegIdx) (s : State) :
    exec (.ldVxVy x y) s = .next ((s.setV x (s.v y)).advance .next) := rfl

theorem exec_orVxVy (x y : RegIdx) (s : State) :
    exec (.orVxVy x y) s = .next ((s.setV x (s.v x ||| s.v y)).advance .next) := rfl

theorem exec_andVxVy (x y : RegIdx) (s : State) :
    exec (.andVxVy x y) s = .next ((s.setV x (s.v x &&& s.v y)).advance .next) := rfl

theorem exec_xorVxVy (x y : RegIdx) (s : State) :
    exec (.xorVxVy x y) s = .next ((s.setV x (s.v x ^^^ s.v y)).advance .next) := rfl

theorem exec_rnd (x : RegIdx) (kk : Byte) (s : State) :
    exec (.rnd x kk) s = .next ((s.setV x (s.rnd &&& kk)).advance .next) := rfl

/-! ### The instructions that write a result and a flag (R201) -/

theorem exec_addVxVy (x y : RegIdx) (s : State) : exec (.addVxVy x y) s =
    .next ((s.writeResultAndFlag x (s.v x + s.v y) (carryFlag (s.v x) (s.v y)) .flagLast).advance .next) :=
  rfl

theorem exec_sub (x y : RegIdx) (s : State) : exec (.sub x y) s =
    .next ((s.writeResultAndFlag x (s.v x - s.v y) (noBorrowFlag (s.v x) (s.v y)) .flagLast).advance .next) :=
  rfl

theorem exec_subn (x y : RegIdx) (s : State) : exec (.subn x y) s =
    .next ((s.writeResultAndFlag x (s.v y - s.v x) (noBorrowFlag (s.v y) (s.v x)) .flagLast).advance .next) :=
  rfl

theorem exec_shr (x y : RegIdx) (s : State) : exec (.shr x y) s =
    .next ((s.shiftWrite x (· >>> 1) (shrOut (s.v x)) s.config.vfWriteOrder).advance .next) := rfl

theorem exec_shl (x y : RegIdx) (s : State) : exec (.shl x y) s =
    .next ((s.shiftWrite x (· <<< 1) (shlOut (s.v x)) s.config.vfWriteOrder).advance .next) := rfl

/-! ### What the register writes leave unchanged

The handlers write registers alone and answer Next, so what remains to say of each kind of write is
which registers keep their value. -/

theorem advance_next_of_regs (hu : u = { s with regs := u.regs }) :
    (u.advance .next).pc = pcAfterNext s ∧
      u.advance .next = { s with regs := (u.advance .next).regs, pc := (u.advance .next).pc } := by
  rw [hu]
  exact ⟨rfl, rfl⟩

theorem setV_frame (s : State) (x : RegIdx) (b : Byte) :
    (∀ r, r ≠ x → ((s.setV x b).advance .next).v r = s.v r) ∧
      ((s.setV x b).advance .next).pc = pcAfterNext s ∧
      (s.setV x b).advance .next = { s with
        regs := ((s.setV x b).advance .next).regs
        pc := ((s.setV x b).advance .next).pc } :=
  ⟨fun r hr => State.v_setV_ne s x r b hr, advance_next_of_regs rfl⟩

theorem regs_setV_self (s : State) (x : RegIdx) : (s.setV x (s.v x)).regs = s.regs :=
  Vector.set_getElem_self x.isLt

/-! ### A result written before its flag (D4) -/

theorem v_flagLast_VF (s : State) (x : RegIdx) (r f : Byte) :
    (s.writeResultAndFlag x r f .flagLast).v VF = f := by
  rw [State.v_writeResultAndFlag_flagLast, if_pos rfl]

theorem v_flagLast_result {x : RegIdx} (hx : x ≠ VF) (r f : Byte) :
    (s.writeResultAndFlag x r f .flagLast).v x = r := by
  rw [State.v_writeResultAndFlag_flagLast, if_neg hx, if_pos rfl]

theorem v_flagLast_ne {x q : RegIdx} (r f : Byte) (hx : q ≠ x) (hf : q ≠ VF) :
    (s.writeResultAndFlag x r f .flagLast).v q = s.v q := by
  rw [State.v_writeResultAndFlag_flagLast, if_neg hf, if_neg hx]

/-! ### A shift's result and flag, in the configured order -/

theorem v_shiftWrite_result {x : RegIdx} (hx : x ≠ VF) (g : Byte → Byte) (f : Byte) (o : VfWriteOrder) :
    (s.shiftWrite x g f o).v x = g (s.v x) := by
  rw [State.v_shiftWrite s x x g f o hx, if_pos rfl]

theorem v_shiftWrite_flag {x : RegIdx} (hx : x ≠ VF) (g : Byte → Byte) (f : Byte) (o : VfWriteOrder) :
    (s.shiftWrite x g f o).v VF = f := by
  rw [State.v_shiftWrite s x VF g f o hx, if_neg hx.symm, if_pos rfl]

theorem v_shiftWrite_ne {x r : RegIdx} (g : Byte → Byte) (f : Byte) (o : VfWriteOrder) (hx : r ≠ x)
    (hf : r ≠ VF) : (s.shiftWrite x g f o).v r = s.v r := by
  by_cases hxf : x = VF
  · subst hxf
    rw [State.v_shiftWrite_VF, if_neg hf]
  · rw [State.v_shiftWrite s x r g f o hxf, if_neg hx, if_neg hf]

/-! ### The values as numbers (R43) -/

theorem flagByte_toNat (p : Prop) [Decidable p] : (flagByte (decide p)).toNat = if p then 1 else 0 := by
  by_cases hp : p <;> simp [hp]

theorem carryFlag_toNat (a b : Byte) :
    (carryFlag a b).toNat = if a.toNat + b.toNat > 255 then 1 else 0 :=
  flagByte_toNat _

theorem noBorrowFlag_toNat (a b : Byte) :
    (noBorrowFlag a b).toNat = if a.toNat > b.toNat then 1 else 0 :=
  flagByte_toNat _

theorem sub_toNat (a b : Byte) : (a - b).toNat = (a.toNat + 256 - b.toNat) % 256 := by
  have hb := b.isLt
  rw [BitVec.toNat_sub]
  congr 1
  omega

theorem shiftRight_one_toNat (a : Byte) : (a >>> 1).toNat = a.toNat / 2 := by
  rw [BitVec.toNat_ushiftRight, Nat.shiftRight_eq_div_pow, Nat.pow_one]

theorem shiftLeft_one_toNat (a : Byte) : (a <<< 1).toNat = a.toNat * 2 % 256 := by
  rw [BitVec.toNat_shiftLeft, Nat.shiftLeft_eq, Nat.pow_one]

/-- The bit that SHR moves out is 0 or 1, and 0 when it is itself shifted right. -/
theorem shrOut_shiftRight_one_toNat (a : Byte) : (shrOut a >>> 1).toNat = 0 := by
  rw [shiftRight_one_toNat, shrOut_toNat]
  omega

/-- The bit that SHL moves out is 0 or 1, so doubling it does not wrap. -/
theorem shlOut_shiftLeft_one_toNat (a : Byte) : (shlOut a <<< 1).toNat = a.toNat / 128 * 2 := by
  have ha := a.isLt
  rw [shiftLeft_one_toNat, shlOut_toNat]
  omega

/-! ### SUB and SUBN (R209, R211) -/

/-- A difference with its no-borrow flag, for whichever register is the minuend. -/
theorem exec_difference {i : Instr} {x : RegIdx} {a b : Byte}
    (h : exec i s = .next ((s.writeResultAndFlag x (a - b) (noBorrowFlag a b) .flagLast).advance .next)) :
    ∃ t, exec i s = .next t ∧ (t.v VF).toNat = (if a.toNat > b.toNat then 1 else 0) ∧
      (x ≠ VF → (t.v x).toNat = (a.toNat + 256 - b.toNat) % 256) ∧
      (∀ r, r ≠ x → r ≠ VF → t.v r = s.v r) ∧ t.pc = pcAfterNext s ∧
      t = { s with regs := t.regs, pc := t.pc } := by
  refine ⟨_, h, ?_, fun hx => ?_, fun _ => v_flagLast_ne _ _,
    advance_next_of_regs (State.writeResultAndFlag_eq ..)⟩
  · rw [State.advance_v, v_flagLast_VF, noBorrowFlag_toNat]
  · rw [State.advance_v, v_flagLast_result hx, sub_toNat]

/-! ### The obligations -/

/-- Settles O28: LD Vx, kk is one write of V[x]. -/
theorem ldVxKkLoads : Obligations.LdVxKkLoads := by
  unfold Obligations.LdVxKkLoads
  exact fun x kk s => ⟨decode_encode (i := .ldVxKk x kk) rfl, _, exec_ldVxKk x kk s,
    State.v_setV_same s x kk, setV_frame s x kk⟩

/-- Settles O29: a sum of bytes is the sum modulo 256, and V[x] is all that is written. -/
theorem addVxKkWrapsWithoutFlag : Obligations.AddVxKkWrapsWithoutFlag := by
  unfold Obligations.AddVxKkWrapsWithoutFlag
  refine fun x kk s => ⟨decode_encode (i := .addVxKk x kk) rfl, _, exec_addVxKk x kk s, ?_,
    setV_frame s x _⟩
  rw [State.advance_v, State.v_setV_same, BitVec.toNat_add]

/-- Settles O30: for x = y the one write puts back the value that V[x] has. -/
theorem ldVxVyCopies : Obligations.LdVxVyCopies := by
  unfold Obligations.LdVxVyCopies
  refine fun x y s => ⟨decode_encode (i := .ldVxVy x y) rfl, _, exec_ldVxVy x y s,
    State.v_setV_same s x (s.v y), ?_, setV_frame s x _⟩
  rintro rfl
  exact regs_setV_self s x

/-- Settles O31: the bits of a bitwise operation are the operation on the bits. -/
theorem logicActsBitwiseWithoutFlag : Obligations.LogicActsBitwiseWithoutFlag := by
  unfold Obligations.LogicActsBitwiseWithoutFlag
  refine fun x y s => ⟨decode_encode (i := .orVxVy x y) rfl, decode_encode (i := .andVxVy x y) rfl,
    decode_encode (i := .xorVxVy x y) rfl,
    ⟨_, exec_orVxVy x y s, fun j _ => ?_, setV_frame s x _⟩,
    ⟨_, exec_andVxVy x y s, fun j _ => ?_, setV_frame s x _⟩,
    ⟨_, exec_xorVxVy x y s, fun j _ => ?_, setV_frame s x _⟩⟩
  · rw [State.advance_v, State.v_setV_same, BitVec.getLsbD_or]
  · rw [State.advance_v, State.v_setV_same, BitVec.getLsbD_and]
  · rw [State.advance_v, State.v_setV_same, BitVec.getLsbD_xor]

/-- Settles O32: the carry is written after the sum, so VF holds it for x = F too. -/
theorem addVxVySetsCarry : Obligations.AddVxVySetsCarry := by
  unfold Obligations.AddVxVySetsCarry
  refine fun x y s => ⟨decode_encode (i := .addVxVy x y) rfl, _, exec_addVxVy x y s, ?_,
    fun hx => ?_, fun _ => v_flagLast_ne _ _, advance_next_of_regs (State.writeResultAndFlag_eq ..)⟩
  · rw [State.advance_v, v_flagLast_VF, carryFlag_toNat]
  · rw [State.advance_v, v_flagLast_result hx, BitVec.toNat_add]

/-- Settles O33: SUB and SUBN are one difference, with the operands in either order. -/
theorem subAndSubnSetNoBorrow : Obligations.SubAndSubnSetNoBorrow := by
  unfold Obligations.SubAndSubnSetNoBorrow
  exact fun x y s => ⟨decode_encode (i := .sub x y) rfl, decode_encode (i := .subn x y) rfl,
    exec_difference (exec_sub x y s), exec_difference (exec_subn x y s)⟩

/-- Settles O34: for x = F the later write stands; under `sequential` it shifts the flag itself, which is
0 or 1, to 0. -/
theorem shrShiftsVx : Obligations.ShrShiftsVx := by
  unfold Obligations.ShrShiftsVx
  refine fun x y s => ⟨decode_encode (i := .shr x y) rfl, _, exec_shr x y s, fun hx => ⟨?_, ?_⟩, ?_,
    fun _ => v_shiftWrite_ne _ _ _, advance_next_of_regs (State.shiftWrite_eq ..)⟩
  · rw [State.advance_v, v_shiftWrite_result hx, shiftRight_one_toNat]
  · rw [State.advance_v, v_shiftWrite_flag hx, shrOut_toNat]
  · rintro rfl
    rw [State.advance_v, State.v_shiftWrite_VF, if_pos rfl]
    cases s.config.vfWriteOrder with
    | sequential => exact shrOut_shiftRight_one_toNat _
    | resultLast => exact shiftRight_one_toNat _
    | flagLast => exact shrOut_toNat _

/-- Settles O35: for x = F the later write stands; under `sequential` it doubles the flag itself. -/
theorem shlShiftsVx : Obligations.ShlShiftsVx := by
  unfold Obligations.ShlShiftsVx
  refine fun x y s => ⟨decode_encode (i := .shl x y) rfl, _, exec_shl x y s, fun hx => ⟨?_, ?_⟩, ?_,
    fun _ => v_shiftWrite_ne _ _ _, advance_next_of_regs (State.shiftWrite_eq ..)⟩
  · rw [State.advance_v, v_shiftWrite_result hx, shiftLeft_one_toNat]
  · rw [State.advance_v, v_shiftWrite_flag hx, shlOut_toNat]
  · rintro rfl
    rw [State.advance_v, State.v_shiftWrite_VF, if_pos rfl]
    cases s.config.vfWriteOrder with
    | sequential => exact shlOut_shiftLeft_one_toNat _
    | resultLast => exact shiftLeft_one_toNat _
    | flagLast => exact shlOut_toNat _

/-- Settles O36: the random byte is the state's own `rnd`, which is arbitrary, and 0xFF is the mask of all
ones. -/
theorem rndMasksTheRandomByte : Obligations.RndMasksTheRandomByte := by
  unfold Obligations.RndMasksTheRandomByte
  refine fun x kk s => ⟨_, exec_rnd x kk s, fun j _ => ?_, ?_, ?_, setV_frame s x _⟩
  · rw [State.advance_v, State.v_setV_same, BitVec.getLsbD_and]
  · rintro rfl
    rw [State.advance_v, State.v_setV_same]
    exact BitVec.and_zero
  · rintro rfl
    rw [State.advance_v, State.v_setV_same]
    exact BitVec.and_allOnes

end Sys2Proof.Proofs.Alu
end

section
/-! SUPPORT. The proofs of the family 43_index_memory.md: the index register, the glyph address, the
decimal digits, and the blocks of registers stored and loaded (R230 to R235). -/

open Sys2Proof Sys2Proof.Machine Sys2Proof.Statements Sys2Proof.Proofs.Encoding

namespace Sys2Proof.Proofs.IndexMemory

variable {s : State}

/-! ### The instructions that write I (R230 to R232) -/

theorem exec_ldI (nnn : Imm12) (s : State) :
    exec (.ldI nnn) s = .next ((s.setI (addrOf nnn)).advance .next) := rfl

theorem exec_addIVx (x : RegIdx) (s : State) :
    exec (.addIVx x) s = .next ((s.setI (s.i + zext16 (s.v x))).advance .next) := rfl

theorem exec_ldFVx {x : RegIdx} (h : (s.v x).toNat ≤ 15) :
    ∃ a : Word, a.toNat = 5 * (s.v x).toNat ∧ exec (.ldFVx x) s = .next ((s.setI a).advance .next) := by
  rcases glyphAddress_cases (s.v x) with ⟨a, e, ha, -⟩ | ⟨-, hgt⟩
  · exact ⟨a, ha, by rw [exec, execLdFVx, e]⟩
  · omega

theorem exec_ldFVx_of_gt {x : RegIdx} (h : 15 < (s.v x).toNat) :
    exec (.ldFVx x) s = .fault (.fontDigitFault s.pc (s.v x)) := by
  rcases glyphAddress_cases (s.v x) with ⟨-, -, -, hle⟩ | ⟨e, -⟩
  · omega
  · rw [exec, execLdFVx, e]; rfl

/-! ### A block stored by an instruction (R73 to R75) -/

section Store

variable {a : Word} {bs : List Byte}

theorem finish_memWrite (hbs : bs ≠ []) (c : Control) (hb : a.toNat + bs.length ≤ 4096)
    (hf : ¬ (s.config.fontWrite = .fault ∧ a.toNat < 80)) :
    finish (s.memWrite a bs) c =
      .next ({ s with mem := Memory.writeBlock s.mem a.toNat bs }.advance c) := by
  rcases s.memWrite_cases a bs hbs with ⟨-, -, e⟩ | ⟨-, hfont, -⟩ | ⟨hout, -⟩
  · rw [e, finish_ok]
  · exact absurd hfont hf
  · omega

theorem finish_memWrite_of_outOfBounds (hbs : bs ≠ []) (c : Control) (hb : 4096 < a.toNat + bs.length) :
    finish (s.memWrite a bs) c = .fault (.memOutOfBounds s.pc a bs.length) := by
  rcases s.memWrite_cases a bs hbs with ⟨hin, -, -⟩ | ⟨hin, -, -⟩ | ⟨-, e⟩
  · omega
  · omega
  · rw [e, finish_error]

/-- A block of at most 16 bytes from an address in the font is in bounds, so the font check is the one
that fails. -/
theorem finish_memWrite_of_font (hbs : bs ≠ []) (c : Control) (hlen : bs.length ≤ 16)
    (hf : s.config.fontWrite = .fault) (ha : a.toNat < 80) :
    finish (s.memWrite a bs) c = .fault (.fontWriteFault s.pc a) := by
  rcases s.memWrite_cases a bs hbs with ⟨-, hnot, -⟩ | ⟨-, -, e⟩ | ⟨hout, -⟩
  · exact absurd ⟨hf, ha⟩ hnot
  · rw [e, finish_error]
  · omega

end Store

/-- A block write changes no byte outside the block (R79). -/
theorem read_writeBlock_outside (m : Memory) {a b : Nat} {bs : List Byte}
    (h : b < a ∨ a + bs.length ≤ b) : Memory.read (Memory.writeBlock m a bs) b = Memory.read m b := by
  rw [Memory.read_writeBlock]
  rcases h with hlo | hhi
  · rw [if_neg (by omega)]
  · rw [if_pos (by omega), List.getD_eq_default _ _ (by omega)]

/-- Byte k of a block write is the block's byte k. -/
theorem read_writeBlock_add (m : Memory) (a : Nat) {bs : List Byte} {k : Nat} (h : k < bs.length) :
    Memory.read (Memory.writeBlock m a bs) (a + k) = bs[k] := by
  rw [Memory.read_writeBlock, if_pos (Nat.le_add_right a k), Nat.add_sub_cancel_left,
    List.getD_eq_getElem _ _ h]

/-! ### The decimal digits (R233) -/

/-- The three digits of a byte are each below 256, so a stored digit is its number. -/
theorem read_writeBlock_bcdDigits (m : Memory) (a : Nat) (b : Byte) :
    (Memory.read (Memory.writeBlock m a (bcdDigits b)) a).toNat = b.toNat / 100 ∧
      (Memory.read (Memory.writeBlock m a (bcdDigits b)) (a + 1)).toNat = b.toNat / 10 % 10 ∧
      (Memory.read (Memory.writeBlock m a (bcdDigits b)) (a + 2)).toNat = b.toNat % 10 := by
  have hb := b.isLt
  have hdigit (k : Nat) (hk : k < 3) :
      (Memory.read (Memory.writeBlock m a (bcdDigits b)) (a + k)).toNat = ((bcdDigits b)[k]'hk).toNat :=
    congrArg BitVec.toNat (read_writeBlock_add m a hk)
  exact ⟨(hdigit 0 (by decide)).trans (Nat.mod_eq_of_lt (by omega)),
    (hdigit 1 (by decide)).trans (Nat.mod_eq_of_lt (by omega)),
    (hdigit 2 (by decide)).trans (Nat.mod_eq_of_lt (by omega))⟩

/-! ### V0 to V[x] as a block (R234, R235) -/

theorem vUpTo_ne_nil (s : State) (x : RegIdx) : s.vUpTo x ≠ [] :=
  List.ne_nil_of_length_pos (by simp)

theorem exec_loadRegs {x : RegIdx} (h : s.i.toNat + x.toNat + 1 ≤ 4096) :
    exec (.loadRegs x) s =
      .next ((s.setVs 0 (Memory.readBlock s.mem s.i.toNat (x.toNat + 1))).advance .next) := by
  rcases s.memRead_cases s.i (x.toNat + 1) with ⟨-, e⟩ | ⟨hout, -⟩
  · rw [exec, execLoadRegs, e]
  · omega

theorem exec_loadRegs_of_outOfBounds {x : RegIdx} (h : 4096 < s.i.toNat + x.toNat + 1) :
    exec (.loadRegs x) s = .fault (.memOutOfBounds s.pc s.i (x.toNat + 1)) := by
  rcases s.memRead_cases s.i (x.toNat + 1) with ⟨hin, -⟩ | ⟨-, e⟩
  · omega
  · rw [exec, execLoadRegs, e]; rfl

/-- Register r of a loaded block is the block's byte r. -/
theorem v_setVs_readBlock (s : State) (m : Memory) (a : Nat) {x r : RegIdx} (h : r.toNat ≤ x.toNat) :
    (s.setVs 0 (Memory.readBlock m a (x.toNat + 1))).v r = Memory.read m (a + r.toNat) := by
  have hx := x.isLt
  rw [State.v_setVs _ _ _ _ (by rw [Memory.length_readBlock]; omega), if_pos (Nat.zero_le _), Nat.sub_zero,
    List.getD_eq_getElem _ _ (by rw [Memory.length_readBlock]; omega),
    Memory.getElem_readBlock _ _ _ _ (by omega)]

/-- A loaded block leaves the registers above x alone. -/
theorem v_setVs_readBlock_of_gt (s : State) (m : Memory) (a : Nat) {x r : RegIdx} (h : x.toNat < r.toNat) :
    (s.setVs 0 (Memory.readBlock m a (x.toNat + 1))).v r = s.v r := by
  have hr := r.isLt
  exact State.setVs_keeps s 0 _ r (by rw [Memory.length_readBlock]; omega)
    (by rw [Memory.length_readBlock]; omega)

/-! ### The obligations -/

/-- Settles O37: LD I is one write of I, with the operand zero-extended. -/
theorem ldISetsIndex : Obligations.LdISetsIndex := by
  unfold Obligations.LdISetsIndex
  exact fun nnn s =>
    ⟨decode_encode (i := .ldI nnn) rfl, _, exec_ldI nnn s, addrOf_toNat nnn, rfl, rfl⟩

/-- Settles O38: a sum of words is the sum modulo 2^16, and I is all that is written. -/
theorem addIVxWrapsWithoutFlag : Obligations.AddIVxWrapsWithoutFlag := by
  unfold Obligations.AddIVxWrapsWithoutFlag
  refine fun x s => ⟨_, exec_addIVx x s, ?_, rfl, rfl⟩
  rw [State.advance_i, State.setI_i, BitVec.toNat_add, zext16_toNat]

/-- Settles O39: a value has a glyph address exactly where it is a digit. -/
theorem ldFVxPointsAtTheGlyph : Obligations.LdFVxPointsAtTheGlyph := by
  unfold Obligations.LdFVxPointsAtTheGlyph
  refine fun x s => ⟨fun hle => ?_, exec_ldFVx_of_gt⟩
  obtain ⟨a, ha, hexec⟩ := exec_ldFVx hle
  exact ⟨_, hexec, ha, rfl, rfl⟩

/-- Settles O40: the handler is one MemWrite of the three digits. -/
theorem ldBVxStoresDigits : Obligations.LdBVxStoresDigits := by
  unfold Obligations.LdBVxStoresDigits
  intro x s
  have hne : bcdDigits (s.v x) ≠ [] := List.cons_ne_nil _ _
  refine ⟨decode_encode (i := .ldBVx x) rfl, finish_memWrite_of_outOfBounds hne .next,
    finish_memWrite_of_font hne .next (by simp), fun hb hf => ?_⟩
  obtain ⟨hhundreds, htens, hones⟩ := read_writeBlock_bcdDigits s.mem s.i.toNat (s.v x)
  exact ⟨_, finish_memWrite hne .next hb hf, hhundreds, htens, hones,
    fun _ => read_writeBlock_outside s.mem (bs := bcdDigits (s.v x)), rfl, rfl⟩

/-- Settles O41: the handler is one MemWrite of V0 to V[x], x + 1 bytes. -/
theorem storeRegsStoresV0ToVx : Obligations.StoreRegsStoresV0ToVx := by
  unfold Obligations.StoreRegsStoresV0ToVx
  intro x s
  have hx := x.isLt
  have hne := vUpTo_ne_nil s x
  have hlen := State.length_vUpTo s x
  refine ⟨fun hb => ?_, finish_memWrite_of_font hne .next (by omega), fun hb hf => ?_⟩
  · exact hlen ▸ finish_memWrite_of_outOfBounds hne .next (by omega)
  · exact ⟨_, finish_memWrite hne .next (by omega) hf,
      fun r => MachineMemory.read_writeBlock_vUpTo s s.mem s.i.toNat,
      fun a ha => read_writeBlock_outside s.mem (by omega), rfl, rfl⟩

/-- Settles O42: the handler is one MemRead of x + 1 bytes, then the writes of V0 to V[x]. -/
theorem loadRegsLoadsV0ToVx : Obligations.LoadRegsLoadsV0ToVx := by
  unfold Obligations.LoadRegsLoadsV0ToVx
  exact fun x s => ⟨exec_loadRegs_of_outOfBounds, fun hb => ⟨_, exec_loadRegs hb,
    fun _ => v_setVs_readBlock s s.mem s.i.toNat, fun _ => v_setVs_readBlock_of_gt s s.mem s.i.toNat,
    Alu.advance_next_of_regs (State.setVs_eq ..)⟩⟩

end Sys2Proof.Proofs.IndexMemory
end

section
/-! SUPPORT. The proofs of the family 44_display.md: what a draw turns on and off, CLS and DRW (R260 to
R268). -/

open Sys2Proof Sys2Proof.Machine Sys2Proof.Statements Sys2Proof.Proofs.Encoding

namespace Sys2Proof.Proofs.Display

/-! ### The cells that a sprite strikes -/

/-- A sprite read from memory strikes the pixels that `Covers` names (R261, R264). -/
theorem mem_spriteCells_readBlock_iff (m : Memory) (a n : Nat) (cx cy : Byte) (r : Fin 32) (c : Fin 64) :
    (r, c) ∈ Frame.spriteCells cx cy 0 (Memory.readBlock m a n) ↔ Covers m a n cx cy r c := by
  rw [Frame.mem_spriteCells, Memory.length_readBlock, Covers]
  refine exists_congr fun k => and_congr_right fun hk => exists_congr fun j => and_congr_right fun _ => ?_
  rw [List.getD_eq_getElem _ _ (by rwa [Memory.length_readBlock]), Memory.getElem_readBlock m a n k hk,
    spriteBit_iff, Nat.zero_add]

theorem not_mem_spriteCells_of_zero {bs : List Byte} (h0 : ∀ b ∈ bs, b = 0) (cx cy : Byte)
    (p : Fin 32 × Fin 64) : p ∉ Frame.spriteCells cx cy 0 bs := by
  rw [Frame.mem_spriteCells]
  rintro ⟨k, hk, j, -, hbit, -⟩
  rw [List.getD_eq_getElem _ _ hk, h0 _ (List.getElem_mem hk)] at hbit
  simp [spriteBit] at hbit

/-! ### What a draw turns on and off (R264, R265, R268) -/

section Draw

variable {bs : List Byte} (f : Frame) (cx cy : Byte) (hbs : bs.length ≤ 32)
include hbs

theorem pixel_drawSprite_ne_iff (r : Fin 32) (c : Fin 64) :
    Frame.pixel (Frame.drawSprite f bs cx cy).1 r c ≠ Frame.pixel f r c ↔
      (r, c) ∈ Frame.spriteCells cx cy 0 bs := by
  rw [(Frame.drawSprite_spec f bs cx cy hbs).1]
  by_cases hp : (r, c) ∈ Frame.spriteCells cx cy 0 bs <;> simp [hp]

/-- A struck pixel that was lit is one that the draw turns off. -/
theorem collision_iff_turnedOff : (Frame.drawSprite f bs cx cy).2 = true ↔
    ∃ r c, Frame.pixel f r c = true ∧ Frame.pixel (Frame.drawSprite f bs cx cy).1 r c = false := by
  rw [(Frame.drawSprite_spec f bs cx cy hbs).2]
  refine exists_congr fun r => exists_congr fun c => ?_
  rw [and_comm, ← pixel_drawSprite_ne_iff f cx cy hbs]
  refine and_congr_right fun hlit => ?_
  rw [hlit, ne_eq, Bool.not_eq_true]

/-- Both draws strike the same cells, and a pixel struck twice is as it was (R268 (b)). -/
theorem drawSprite_drawSprite :
    (Frame.drawSprite (Frame.drawSprite f bs cx cy).1 bs cx cy).1 = f := by
  refine Frame.ext_pixel fun r c => ?_
  rw [(Frame.drawSprite_spec _ bs cx cy hbs).1, (Frame.drawSprite_spec f bs cx cy hbs).1, Bool.xor_assoc,
    Bool.xor_self, Bool.xor_false]

theorem drawSprite_of_zero (h0 : ∀ b ∈ bs, b = 0) : Frame.drawSprite f bs cx cy = (f, false) := by
  obtain ⟨hpixel, hcollision⟩ := Frame.drawSprite_spec f bs cx cy hbs
  have hnone := not_mem_spriteCells_of_zero h0 cx cy
  refine Prod.ext (Frame.ext_pixel fun r c => ?_) (Bool.eq_false_iff.2 fun hc => ?_)
  · rw [hpixel, decide_eq_false (hnone _), Bool.xor_false]
  · obtain ⟨r, c, hmem, -⟩ := hcollision.1 hc
    exact hnone _ hmem

end Draw

/-! ### The instructions (R266, R267) -/

theorem pixel_clear (r : Fin 32) (c : Fin 64) : Frame.pixel Frame.clear r c = false := by
  simp [Frame.pixel, Frame.clear]

theorem exec_cls (s : State) : exec .cls s = .next (s.clearDisplay.advance .next) := rfl

/-- The sprite that DRW draws: the n bytes at I. -/
def spriteAt (s : State) (n : BitVec 4) : List Byte := Memory.readBlock s.mem s.i.toNat n.toNat

section Drw

variable {s : State} {n : BitVec 4} (x y : RegIdx)

theorem exec_drw_of_outOfBounds (h : 4096 < s.i.toNat + n.toNat) :
    exec (.drw x y n) s = .fault (.memOutOfBounds s.pc s.i n.toNat) := by
  rcases s.memRead_cases s.i n.toNat with ⟨hin, -⟩ | ⟨-, e⟩
  · omega
  · rw [exec, execDrw, e]; rfl

theorem exec_drw (h : s.i.toNat + n.toNat ≤ 4096) : exec (.drw x y n) s =
    .next (((s.drawSprite (spriteAt s n) (s.v x) (s.v y)).1.setV VF
      (flagByte (s.drawSprite (spriteAt s n) (s.v x) (s.v y)).2)).advance .next) := by
  rcases s.memRead_cases s.i n.toNat with ⟨-, e⟩ | ⟨hout, -⟩
  · rw [exec, execDrw, e]; rfl
  · omega

end Drw

/-! ### The obligations -/

/-- Settles O44: the sprite's cells are the covered pixels, and the collision becomes VF. -/
theorem drwXorsTheSprite : Obligations.DrwXorsTheSprite := by
  unfold Obligations.DrwXorsTheSprite
  refine fun x y n s => ⟨exec_drw_of_outOfBounds x y, fun hb => ⟨_, exec_drw x y hb, ?_⟩⟩
  have hlen : (spriteAt s n).length ≤ 32 := by
    have hn := n.isLt
    rw [spriteAt, Memory.length_readBlock]
    omega
  have hcells := mem_spriteCells_readBlock_iff s.mem s.i.toNat n.toNat (s.v x) (s.v y)
  have hcollision : (s.drawSprite (spriteAt s n) (s.v x) (s.v y)).2 = true ↔ ∃ r c,
      Frame.pixel s.pixels r c = true ∧ Covers s.mem s.i.toNat n.toNat (s.v x) (s.v y) r c :=
    (Frame.drawSprite_spec s.pixels (spriteAt s n) (s.v x) (s.v y) hlen).2.trans <|
      exists_congr fun r => exists_congr fun c => and_comm.trans (and_congr_right' (hcells r c))
  refine ⟨fun r c => (pixel_drawSprite_ne_iff s.pixels _ _ hlen r c).trans (hcells r c), fun hlit => ?_,
    fun hdark => ?_, fun r hr => State.v_setV_ne _ VF r _ hr, rfl, rfl, rfl⟩
  · rw [State.advance_v, State.v_setV_same, hcollision.2 hlit, flagByte_true]
  · rw [State.advance_v, State.v_setV_same, Bool.eq_false_iff.2 (mt hcollision.1 hdark), flagByte_false]

/-- Settles O45: a collision is a lit pixel struck, and a sprite without a set bit strikes none. -/
theorem collisionIsAPixelTurnedOff : Obligations.CollisionIsAPixelTurnedOff := by
  unfold Obligations.CollisionIsAPixelTurnedOff
  intro f bs cx cy hlen
  have hbs : bs.length ≤ 32 := hlen.trans (by decide)
  refine ⟨collision_iff_turnedOff f cx cy hbs, fun h0 => ?_⟩
  rw [drawSprite_of_zero f cx cy hbs h0]
  exact ⟨rfl, rfl⟩

/-- Settles O46: the second draw undoes the first, so it turns off what the first turned on. -/
theorem drawingTwiceRestoresTheDisplay : Obligations.DrawingTwiceRestoresTheDisplay := by
  unfold Obligations.DrawingTwiceRestoresTheDisplay
  intro f bs cx cy hlen
  have hbs : bs.length ≤ 32 := hlen.trans (by decide)
  have hback := drawSprite_drawSprite f cx cy hbs
  refine ⟨hback, (collision_iff_turnedOff _ cx cy hbs).trans ?_⟩
  rw [hback]
  exact exists_congr fun r => exists_congr fun c => and_comm

/-- Settles O43: CLS is `Clear()`, and the redraw output is must_draw as the instruction left it. -/
theorem clsClearsTheDisplay : Obligations.ClsClearsTheDisplay := by
  unfold Obligations.ClsClearsTheDisplay
  exact ⟨decode_encode (i := .cls) rfl, fun s =>
    ⟨_, exec_cls s, pixel_clear, rfl, StepCycle.endStep_redraw _, rfl, rfl⟩⟩

end Sys2Proof.Proofs.Display
end

section
/-! SUPPORT. The proofs of the family 45_keyboard.md: the key events of the host, the skips on a key and
the key wait (R290 to R296). -/

open Sys2Proof Sys2Proof.Machine Sys2Proof.Statements

namespace Sys2Proof.Proofs.Keyboard

variable {s : State}

/-! ### The key events of the host (R292, R293, R352) -/

theorem hostPressKey_of_lt {n : Nat} (h : n < 16) :
    s.hostPressKey n = some (s.keyEvents [.press (BitVec.ofNat 4 n)]) := if_pos h

theorem hostPressKey_of_ge {n : Nat} (h : 16 ≤ n) : s.hostPressKey n = none := if_neg (Nat.not_lt.2 h)

theorem hostUnpressKey_of_lt {n : Nat} (h : n < 16) :
    s.hostUnpressKey n = some (s.keyEvents [.release (BitVec.ofNat 4 n)]) := if_pos h

theorem hostUnpressKey_of_ge {n : Nat} (h : 16 ≤ n) : s.hostUnpressKey n = none :=
  if_neg (Nat.not_lt.2 h)

theorem keyDown_press_same (s : State) (k : Key) : (s.keyEvents [.press k]).keyDown k = true :=
  Vector.getElem_set_self k.isLt

theorem keyDown_release_same (s : State) (k : Key) : (s.keyEvents [.release k]).keyDown k = false :=
  Vector.getElem_set_self k.isLt

theorem keyDown_press_ne {k q : Key} (h : q ≠ k) :
    (s.keyEvents [.press k]).keyDown q = s.keyDown q :=
  Vector.getElem_set_ne k.isLt q.isLt fun e => h (BitVec.eq_of_toNat_eq e.symm)

theorem keyDown_release_ne {k q : Key} (h : q ≠ k) :
    (s.keyEvents [.release k]).keyDown q = s.keyDown q :=
  Vector.getElem_set_ne k.isLt q.isLt fun e => h (BitVec.eq_of_toNat_eq e.symm)

theorem latch_press_of_waiting (k : Key) (hw : s.waiting = true) (hl : s.latch = none) :
    (s.keyEvents [.press k]).latch = some k := if_pos ⟨hw, hl⟩

/-- Idle, or with the slot full, the keyboard latches nothing. -/
theorem latch_press_of_not (k : Key) (h : s.waiting = false ∨ s.latch ≠ none) :
    (s.keyEvents [.press k]).latch = s.latch := by
  refine if_neg fun ⟨hw, hl⟩ => ?_
  rcases h with hidle | hfull
  · exact Bool.false_ne_true (hidle.symm.trans hw)
  · exact hfull hl

theorem key_ne_ofNat {q : Key} {n : Nat} (h : q.toNat ≠ n) (hn : n < 16) : q ≠ BitVec.ofNat 4 n :=
  fun e => h (by rw [e, BitVec.toNat_ofNat, Nat.mod_eq_of_lt hn])

/-! ### The skips on a key (R294, R295) -/

theorem keyOf_eq_some {b : Byte} {k : Key} (h : k.toNat = b.toNat) : keyOf b = some k := by
  rcases keyOf_cases b with ⟨q, e, hq, -⟩ | ⟨-, hgt⟩
  · rw [e, BitVec.eq_of_toNat_eq (hq.trans h.symm)]
  · have := k.isLt
    omega

theorem keyOf_eq_none {b : Byte} (h : 15 < b.toNat) : keyOf b = none := by
  rcases keyOf_cases b with ⟨-, -, -, hle⟩ | ⟨e, -⟩
  · omega
  · exact e

section Skips

variable {x : RegIdx}

theorem exec_skp {k : Key} (h : k.toNat = (s.v x).toNat) :
    exec (.skp x) s = .next (s.advance (skipIf (s.keyDown k))) := by
  rw [exec, execSkp, keyOf_eq_some h]

theorem exec_sknp {k : Key} (h : k.toNat = (s.v x).toNat) :
    exec (.sknp x) s = .next (s.advance (skipIf (!s.keyDown k))) := by
  rw [exec, execSknp, keyOf_eq_some h]

theorem exec_skp_of_gt (h : 15 < (s.v x).toNat) :
    exec (.skp x) s = .fault (.keyIndexFault s.pc (s.v x)) := by
  rw [exec, execSkp, keyOf_eq_none h]; rfl

theorem exec_sknp_of_gt (h : 15 < (s.v x).toNat) :
    exec (.sknp x) s = .fault (.keyIndexFault s.pc (s.v x)) := by
  rw [exec, execSknp, keyOf_eq_none h]; rfl

end Skips

/-! ### The key wait (R291, R296) -/

theorem exec_ldVxK (x : RegIdx) (s : State) :
    exec (.ldVxK x) s = .next ((s.takeKey x).advance .next) := rfl

/-! ### The obligations -/

/-- Settles O48: up to 15 the verdict is Skip exactly on the key's level, and a verdict moves the pc
alone; above 15 the value names no key. -/
theorem skipsOnKeys : Obligations.SkipsOnKeys := by
  unfold Obligations.SkipsOnKeys
  exact fun x s => ⟨fun hgt => ⟨exec_skp_of_gt hgt, exec_sknp_of_gt hgt⟩, fun k hk =>
    ⟨⟨_, exec_skp hk, ControlFlow.nextPc_skipIf Iff.rfl, rfl⟩,
      ⟨_, exec_sknp hk, ControlFlow.nextPc_skipIf (by rw [Bool.not_eq_true']), rfl⟩⟩⟩

/-- Settles O49: the handler completes, and either no key is taken and the keyboard is left Waiting at
the same pc, or the latched key is taken and the wait ends. -/
theorem ldVxKWaitsForAKey : Obligations.LdVxKWaitsForAKey := by
  unfold Obligations.LdVxKWaitsForAKey
  intro x s
  obtain ⟨t, ht⟩ : ∃ t, exec (.ldVxK x) s = .next t := ⟨_, exec_ldVxK x s⟩
  refine ⟨t, ht, ?_⟩
  rcases MachineState.exec_ldVxK_cases ht with ⟨hempty, rfl⟩ | ⟨k, hw, hk, rfl⟩
  · refine ⟨fun _ => ⟨rfl, rfl, rfl, rfl⟩, fun _ hl => ⟨rfl, hl, rfl, rfl⟩, fun k hw hk => ?_, rfl⟩
    cases (hempty hw).symm.trans hk
  · refine ⟨fun hidle => ?_, fun _ hl => ?_, fun q _ hq => ?_, rfl⟩
    · cases hidle.symm.trans hw
    · cases hl.symm.trans hk
    · have hkey : k = q := Option.some.inj (hk.symm.trans hq)
      have hv : ((s.setV x (byteOfKey k)).v x).toNat = q.toNat := by
        rw [State.v_setV_same, byteOfKey_toNat, hkey]
      exact ⟨rfl, rfl, hv, fun r hr => State.v_setV_ne s x r _ hr, rfl⟩

/-- Settles O50: a release writes the one key state and has no case for the latch. -/
theorem unpressKeyClearsTheKey : Obligations.UnpressKeyClearsTheKey := by
  unfold Obligations.UnpressKeyClearsTheKey
  exact fun s k => ⟨hostUnpressKey_of_ge, fun hk => ⟨_, hostUnpressKey_of_lt hk,
    keyDown_release_same s _, fun q hq => keyDown_release_ne (key_ne_ofNat hq hk), rfl, rfl⟩⟩

/-- Settles O51: a press writes the one key state, and the latch only while Waiting with the slot
empty. -/
theorem pressKeyLatchesTheFirstKey : Obligations.PressKeyLatchesTheFirstKey := by
  unfold Obligations.PressKeyLatchesTheFirstKey
  exact fun s k => ⟨hostPressKey_of_ge, fun hk => ⟨_, hostPressKey_of_lt hk,
    keyDown_press_same s _, fun q hq => keyDown_press_ne (key_ne_ofNat hq hk),
    latch_press_of_waiting _, latch_press_of_not _, rfl⟩⟩

end Sys2Proof.Proofs.Keyboard
end

section
/-! SUPPORT. The proofs of the family 46_timers.md: what the timer instructions do, and what the tick
of their own step makes of it (R310 to R312, R347, R348). -/

open Sys2Proof Sys2Proof.Machine Sys2Proof.Statements

namespace Sys2Proof.Proofs.Timers

variable {s t : State} {i : Instr} {x : RegIdx}

/-! ### The timer instructions -/

theorem exec_ldVxDt (x : RegIdx) (s : State) :
    exec (.ldVxDt x) s = .next ((s.setV x s.dt.count).advance .next) := rfl

theorem exec_ldDtVx (x : RegIdx) (s : State) : exec (.ldDtVx x) s =
    .next (State.advance { s with dt := Timer.setTime (s.v x) s.now } .next) := rfl

theorem exec_ldStVx (x : RegIdx) (s : State) : exec (.ldStVx x) s =
    .next (State.advance { s with st := Timer.setTime (s.v x) s.now } .next) := rfl

/-! ### The phases after the handler (R147, R148) -/

theorem endStep_v (s : State) (r : RegIdx) : s.endStep.v r = s.v r := rfl

/-- The inversion of a step whose word is known to decode to `i`. -/
theorem eq_endStep_of_step (h : step s = .next t) (hd : decode s.wordAtPc = .ok i) :
    ∃ u, exec i s.beginStep = .next u ∧ t = u.endStep := by
  obtain ⟨-, -, j, u, hj, hu, rfl⟩ := step_eq_next s t h
  cases hd.symm.trans hj
  exact ⟨u, hu, rfl⟩

/-- Countdown at the instant of SetTime sees an elapsed time of 0, below every positive period. -/
theorem countdown_setTime {p : Time} (hp : 0 < p) (b : Byte) (now : Time) :
    (Timer.setTime b now).countdown p now = Timer.setTime b now := by
  rcases (Timer.setTime b now).countdown_cases p now with ⟨-, hdue, -⟩ | ⟨-, e⟩
  · exact absurd (hdue.trans_eq (sub_self now)) (not_le_of_gt hp)
  · exact e

/-! ### A step that runs a timer instruction -/

theorem v_of_step_ldVxDt (h : step s = .next t) (hd : decode s.wordAtPc = .ok (.ldVxDt x)) :
    t.v x = s.dt.count := by
  obtain ⟨u, hu, rfl⟩ := eq_endStep_of_step h hd
  cases (exec_ldVxDt x _).symm.trans hu
  rw [endStep_v, State.advance_v, State.v_setV_same, State.beginStep_dt]

theorem dt_of_step_ldDtVx (hp : 0 < s.config.tickPeriod) (h : step s = .next t)
    (hd : decode s.wordAtPc = .ok (.ldDtVx x)) : t.dt = Timer.setTime (s.v x) t.now := by
  obtain ⟨u, hu, rfl⟩ := eq_endStep_of_step h hd
  cases (exec_ldDtVx x _).symm.trans hu
  exact countdown_setTime hp (s.v x) s.beginStep.now

theorem st_of_step_ldStVx (hp : 0 < s.config.tickPeriod) (h : step s = .next t)
    (hd : decode s.wordAtPc = .ok (.ldStVx x)) : t.st = Timer.setTime (s.v x) t.now := by
  obtain ⟨u, hu, rfl⟩ := eq_endStep_of_step h hd
  cases (exec_ldStVx x _).symm.trans hu
  exact countdown_setTime hp (s.v x) s.beginStep.now

/-! ### The obligations -/

/-- Settles O57: the handler sets the timer at the step's clock sample, and the Countdown of the same
step compares that sample with itself. -/
theorem timerSetHoldsThroughItsStep : Obligations.TimerSetHoldsThroughItsStep := by
  unfold Obligations.TimerSetHoldsThroughItsStep
  intro x s t hp h
  refine ⟨fun hd => ?_, fun hd => ?_⟩
  · rw [dt_of_step_ldDtVx hp h hd]
    exact ⟨rfl, rfl⟩
  · rw [st_of_step_ldStVx hp h hd]
    exact ⟨rfl, rfl⟩

/-- Settles O52: LD Vx, DT is one write of V[x]; neither the host's input before it touches DT, nor the
tick after it a register. -/
theorem ldVxDtReadsTheDelayTimer : Obligations.LdVxDtReadsTheDelayTimer := by
  unfold Obligations.LdVxDtReadsTheDelayTimer
  exact ⟨fun x s => ⟨_, exec_ldVxDt x s, State.v_setV_same s x s.dt.count, Alu.setV_frame s x _⟩,
    fun _ _ _ hd h => v_of_step_ldVxDt h hd⟩

end Sys2Proof.Proofs.Timers
end

section
/-! SUPPORT. The proofs of the family 60_exceptions.md: every fault is precise (R331, R332), and what
SetTime and Countdown do to a timer, in one phase and in a whole step (R344, R347 to R349). -/

open Sys2Proof Sys2Proof.Machine Sys2Proof.Statements

namespace Sys2Proof.Proofs.Exceptions

variable {s t u : State} {i : Instr} {f : Fault}

/-! ### Precise faults (R331, R332) -/

theorem pc_of_instrFault {p : Word} (h : StepCycle.InstrFault p f) : f.pc = p := by
  cases h <;> rfl

/-- Whichever phase raises it, a fault of a Running core carries the pc, which the host's input left. -/
theorem pc_of_step_fault (hs : s.status = .running) (h : step s = .fault f) : f.pc = s.pc := by
  rcases step_eq_fault s f h with hf | ⟨-, ⟨-, rfl⟩ | ⟨-, ⟨_, -, rfl⟩ | ⟨i, -, hf⟩⟩⟩
  · cases hs.symm.trans hf
  · rfl
  · rfl
  · exact pc_of_instrFault (StepCycle.exec_fault (s := s.beginStep) hf)

/-- Settles O11: each phase records the pc it stands at, and the state is the one the phases began with. -/
theorem faultsArePrecise : Obligations.FaultsArePrecise := by
  unfold Obligations.FaultsArePrecise
  exact fun s f hs h => ⟨pc_of_step_fault hs h, StepCycle.after_of_fault hs h⟩

/-! ### Countdown of one timer (R348) -/

section Countdown

variable {p now : Time} {c : Timer}

theorem sub_one_toNat {b : Byte} (h : b ≠ 0) : (b - 1).toNat + 1 = b.toNat := by
  bv_omega

theorem countdown_of_due (h0 : c.count ≠ 0) (hp : p ≤ now - c.tickStart) :
    c.countdown p now = ⟨c.count - 1, now⟩ :=
  if_pos ((c.due_iff p now).2 ⟨h0, hp⟩)

theorem countdown_of_not_due (h : ¬ (c.count ≠ 0 ∧ p ≤ now - c.tickStart)) : c.countdown p now = c :=
  if_neg (mt (c.due_iff p now).1 h)

/-- The decrement never wraps, so the counts before and after tell whether there was one. -/
theorem due_iff_countdown_count :
    c.due p now = true ↔ (c.countdown p now).count.toNat + 1 = c.count.toNat := by
  rw [Timer.due_iff]
  constructor
  · rintro ⟨h0, hp⟩
    rw [countdown_of_due h0 hp]
    exact sub_one_toNat h0
  · intro h
    by_contra hnot
    rw [countdown_of_not_due hnot] at h
    omega

theorem countdown_count_cases (p now : Time) (c : Timer) :
    (c.countdown p now).count.toNat = c.count.toNat ∨
      (c.countdown p now).count.toNat + 1 = c.count.toNat := by
  rcases c.countdown_cases p now with ⟨h0, -, e⟩ | ⟨-, e⟩ <;> rw [e]
  · exact .inr (sub_one_toNat h0)
  · exact .inl rfl

end Countdown

/-- Settles O54: phase 6 is the two Countdowns, and ST's sets the beep flag exactly when it is due. -/
theorem countdownDecrementsWhenDue : Obligations.CountdownDecrementsWhenDue := by
  unfold Obligations.CountdownDecrementsWhenDue
  intro s
  simp only [State.tick_dt, State.tick_st]
  refine ⟨fun h0 hp => ?_, countdown_of_not_due, fun h0 hp => ?_, fun h => ?_, rfl⟩
  · rw [countdown_of_due h0 hp]
    exact ⟨sub_one_toNat h0, rfl⟩
  · have hdue : s.st.due s.config.tickPeriod s.now = true := (s.st.due_iff _ _).2 ⟨h0, hp⟩
    rw [countdown_of_due h0 hp, State.tick_mustBeep, hdue, Bool.or_true]
    exact ⟨sub_one_toNat h0, rfl, rfl⟩
  · have hdue : s.st.due s.config.tickPeriod s.now = false :=
      Bool.eq_false_of_not_eq_true (mt (s.st.due_iff _ _).1 h)
    rw [State.tick_mustBeep, hdue, Bool.or_false]
    exact ⟨countdown_of_not_due h, rfl⟩

/-- Settles O53: each handler is one SetTime at the clock sample, and then the verdict Next. -/
theorem setTimeSetsRegisterAndPhase : Obligations.SetTimeSetsRegisterAndPhase := by
  unfold Obligations.SetTimeSetsRegisterAndPhase
  exact fun x s => ⟨⟨_, Timers.exec_ldDtVx x s, rfl, rfl, rfl, rfl⟩,
    ⟨_, Timers.exec_ldStVx x s, rfl, rfl, rfl, rfl, rfl⟩⟩

/-! ### The timers over a whole step (R344, R349) -/

theorem mustBeep_of_exec (h : exec i s = .next u) : u.mustBeep = s.mustBeep := by
  obtain ⟨-, -, -, hbeep, -⟩ := exec_sameHostSide i s u h
  exact hbeep

theorem dt_of_exec (hi : ∀ x, i ≠ .ldDtVx x) (h : exec i s = .next u) : u.dt = s.dt := by
  obtain ⟨-, -, -, -, -, -, hdt, -⟩ := MachineState.onlyTheNamedInstructionsWrite i s u h
  exact by_contra fun hne => (hdt hne).elim hi

theorem st_of_exec (hi : ∀ x, i ≠ .ldStVx x) (h : exec i s = .next u) : u.st = s.st := by
  obtain ⟨-, -, -, -, -, -, -, hst, -⟩ := MachineState.onlyTheNamedInstructionsWrite i s u h
  exact by_contra fun hne => (hst hne).elim hi

theorem endStep_dt (s : State) : s.endStep.dt = s.dt.countdown s.config.tickPeriod s.now := rfl

theorem endStep_st (s : State) : s.endStep.st = s.st.countdown s.config.tickPeriod s.now := rfl

/-- From a clear flag the beep output says whether ST was due. -/
theorem endStep_beep (hs : s.mustBeep = false) :
    s.endStep.out.beep = s.st.due s.config.tickPeriod s.now := by
  rw [State.endStep, State.harvest_out, State.tick_mustBeep, hs, Bool.false_or]

/-- Settles O55: no instruction sets the beep flag, so its harvest is whether ST was due. -/
theorem beepExactlyOnDecrement : Obligations.BeepExactlyOnDecrement := by
  unfold Obligations.BeepExactlyOnDecrement
  intro s t hs h
  obtain ⟨-, -, i, u, hd, hu, rfl⟩ := step_eq_next s t h
  refine ⟨i, u, hd, hu, ?_⟩
  rw [endStep_beep ((mustBeep_of_exec hu).trans hs), endStep_st]
  exact due_iff_countdown_count

/-- Settles O56: an instruction that does not set a timer leaves it to the step's one Countdown. -/
theorem timersDecayByAtMostOne : Obligations.TimersDecayByAtMostOne := by
  unfold Obligations.TimersDecayByAtMostOne
  intro s t h
  obtain ⟨-, -, i, u, hd, hu, rfl⟩ := step_eq_next s t h
  simp only [hd, ne_eq, Except.ok.injEq]
  refine ⟨fun hi => ?_, fun hi => ?_⟩
  · rw [endStep_dt, dt_of_exec hi hu]
    exact countdown_count_cases _ _ s.dt
  · rw [endStep_st, st_of_exec hi hu]
    exact countdown_count_cases _ _ s.st

end Sys2Proof.Proofs.Exceptions
end

section
/-! SUPPORT. The proofs of the family 70_reset_and_hazards.md: what a construction sets (R371, R372),
that State.reset is one, and that a parked run stays parked (R383). -/

open Sys2Proof Sys2Proof.Machine Sys2Proof.Statements

namespace Sys2Proof.Proofs.Reset

variable {s : State} {e : Word}

/-! ### Construction (R371, R372) -/

theorem exists_construct_eq_ok_iff (cfg : Config) (rom : List Byte) :
    (∃ s, construct cfg rom = .ok s) ↔
      80 ≤ cfg.origin ∧ cfg.origin ≤ 4094 ∧ 0 < cfg.run.tickPeriod ∧ 0 ≤ cfg.t0 ∧
        cfg.origin + rom.length ≤ 4096 := by
  simp only [construct_eq_ok_iff, exists_and_left, exists_eq, and_true]

theorem constructed_stack_getElem (cfg : Config) (rom : List Byte) (k : Nat) (h : k < 16) :
    (constructed cfg rom).stack[k] = 0 := by
  simp

theorem constructed_keyDown (cfg : Config) (rom : List Byte) (k : Key) :
    (constructed cfg rom).keyDown k = false := by
  simp [State.keyDown]

/-- Settles O2: admission is the law of `construct`, and each field is that of `constructed`. -/
theorem constructionSetsEveryField : Obligations.ConstructionSetsEveryField := by
  unfold Obligations.ConstructionSetsEveryField
  refine fun cfg rom => ⟨exists_construct_eq_ok_iff cfg rom, fun s hs => ?_⟩
  obtain ⟨hpc, -⟩ := MachineState.constructionStartsAtOrigin.1 cfg rom s hs
  obtain ⟨-, rfl⟩ := (construct_eq_ok_iff cfg rom s).1 hs
  have hmem : Memory.wf (constructed cfg rom).mem = true := by
    rw [constructed_mem]
    exact Memory.ofBytes_wf _
  exact ⟨rfl, rfl, hpc, rfl, constructed_stack_getElem cfg rom,
    read_constructed cfg rom, hmem, rfl, rfl, rfl, Display.pixel_clear, rfl,
    constructed_keyDown cfg rom, rfl, rfl, rfl, rfl, rfl, rfl, rfl, rfl, rfl⟩

/-! ### The reset state -/

/-- Memory lists nothing where it holds what an unlisted address reads as. -/
theorem ofBytes_eq_nil {g : Nat → Byte} (h : ∀ a, g a = Memory.blank a) : Memory.ofBytes g = [] := by
  simp [Memory.ofBytes, h]

theorem initialByte_default (a : Nat) : initialByte defaultConfig [] a = Memory.blank a := by
  simp [initialByte, Memory.blank, defaultByte]

theorem constructed_default : constructed defaultConfig [] = State.reset := by
  rw [constructed, ofBytes_eq_nil initialByte_default]
  rfl

/-- Settles O4: the default parameters are in their ranges, and the memory of an empty ROM lists
nothing. -/
theorem resetIsDefaultConstruction : Obligations.ResetIsDefaultConstruction := by
  unfold Obligations.ResetIsDefaultConstruction
  refine (construct_eq_ok_iff _ _ _).2 ⟨?_, constructed_default.symm⟩
  norm_num [defaultConfig, defaultRun]

/-! ### The parked run (R383) -/

/-- A word 1nnn is JP nnn (R174). -/
theorem jp_word (h : e.toNat ≤ 0xFFF) : 0x1000#16 ||| e = encode (.jp (e.setWidth 12)) := by
  have hor : 4096 ||| e.toNat = 4096 + e.toNat :=
    (Nat.two_pow_add_eq_or_of_lt (i := 12) (by omega) 1).symm
  apply BitVec.eq_of_toNat_eq
  rw [BitVec.toNat_or, encode, packA_toNat, BitVec.toNat_setWidth]
  change 4096 ||| e.toNat = 4096 + e.toNat % 4096
  omega

theorem addrOf_setWidth (h : e.toNat ≤ 0xFFF) : addrOf (e.setWidth 12) = e := by
  apply BitVec.eq_of_toNat_eq
  rw [addrOf_toNat, BitVec.toNat_setWidth]
  omega

theorem decode_of_parked (h : s.Parked e) : decode s.wordAtPc = .ok (.jp (e.setWidth 12)) := by
  obtain ⟨hle, hword⟩ := h.selfJump
  rw [hword, jp_word hle]
  exact Encoding.decode_encode rfl

/-- A jump to the pc itself changes nothing, so of a parked step the input and the end remain. -/
theorem step_of_parked (h : s.Parked e) : step s = .next s.beginStep.endStep := by
  have hexec : exec (.jp (e.setWidth 12)) s.beginStep = .next s.beginStep := by
    rw [ControlFlow.exec_jp, addrOf_setWidth h.selfJump.1, ← h.atE]
    rfl
  exact StepCycle.step_of_exec_next h.running (h.atE ▸ h.fetchable) (decode_of_parked h) hexec

theorem parked_endStep_beginStep (h : s.Parked e) : s.beginStep.endStep.Parked e where
  running := h.running
  atE := h.atE
  fetchable := h.fetchable
  idle := h.idle
  selfJump := h.selfJump

/-- Settles O59: neither the host's input nor the end of the step touches the named state; the latch is
safe because the keyboard is Idle. -/
theorem parkedStaysParked : Obligations.ParkedStaysParked := by
  unfold Obligations.ParkedStaysParked
  exact fun s e h => ⟨_, step_of_parked h, parked_endStep_beginStep h, rfl, rfl, rfl, rfl, rfl, rfl, rfl,
    Scope.beginStep_latch_of_idle h.idle, rfl⟩

end Sys2Proof.Proofs.Reset
end

section
/-! SUPPORT. The proof about the words of spec/95_test_vectors.md. -/

open Sys2Proof Sys2Proof.Proofs.Encoding

namespace Sys2Proof.Proofs.SampleWords

/-- Settles O19: each legal word is the encoding of its instruction, and the other two are rejected by
the rows of their classes. -/
theorem sampleWordsDecode : Obligations.SampleWordsDecode := by
  unfold Obligations.SampleWordsDecode
  exact ⟨decode_encode (i := .jp 0x234) rfl, decode_encode (i := .cls) rfl,
    decode_encode (i := .ret) rfl, decode_encode (i := .sys 0x0FE) rfl,
    decode_encode (i := .seVxVy 1 2) rfl, decode_encode (i := .shl 0 0) rfl,
    decode_encode (i := .skp 1) rfl, decode_encode (i := .ldFVx 1) rfl,
    decode_encode (i := .drw 1 2 0) rfl, by decide, by decide⟩

end Sys2Proof.Proofs.SampleWords
end
